-- ==== Sys2Proof/Word.lean ====
section
/-! DEFINITION. The value types of the CORE (00_scope.md R11, R15, R16): bytes, 16-bit words, register numbers and
12-bit instruction addresses. All of them are unsigned. -/

namespace Sys2Proof

/-- An 8-bit value: a general register, a timer, a byte of memory (R30, R38, R60). -/
abbrev Byte := BitVec 8

/-- A 16-bit value: I, PC, a stack entry, an instruction word (R33, R34, R37, R80). -/
abbrev Word := BitVec 16

/-- The number of a general register, V0 to VF (R30). -/
abbrev Reg := Fin 16

/-- The 12-bit address field `nnn` of an instruction (R81). -/
abbrev Addr12 := BitVec 12

/-- The number of the flag register VF (R31). -/
abbrev vf : Reg := 15

end Sys2Proof
end

