-- ==== Sys2Proof/Syntax.lean ====
section
/-! DEFINITION. The 34 instructions of the opcode table (30_encoding.md R90), one constructor a row. -/

namespace Sys2Proof

/-- An instruction with its operands as fields (R81, R84). Each docstring gives the row's pattern and its syntax. -/
inductive Instr where
  /-- 00E0 `CLS` (R190) -/
  | cls
  /-- 00EE `RET` (R120) -/
  | ret
  /-- 1nnn `JP nnn` (R121) -/
  | jp (nnn : Addr12)
  /-- 2nnn `CALL nnn` (R122) -/
  | call (nnn : Addr12)
  /-- 3xkk `SE Vx, kk` (R124) -/
  | seImm (x : Reg) (kk : Byte)
  /-- 4xkk `SNE Vx, kk` (R125) -/
  | sneImm (x : Reg) (kk : Byte)
  /-- 5xy0 `SE Vx, Vy` (R126) -/
  | seReg (x y : Reg)
  /-- 6xkk `LD Vx, kk` (R140) -/
  | ldImm (x : Reg) (kk : Byte)
  /-- 7xkk `ADD Vx, kk` (R141) -/
  | addImm (x : Reg) (kk : Byte)
  /-- 8xy0 `LD Vx, Vy` (R142) -/
  | ldReg (x y : Reg)
  /-- 8xy1 `OR Vx, Vy` (R143) -/
  | orReg (x y : Reg)
  /-- 8xy2 `AND Vx, Vy` (R144) -/
  | andReg (x y : Reg)
  /-- 8xy3 `XOR Vx, Vy` (R145) -/
  | xorReg (x y : Reg)
  /-- 8xy4 `ADD Vx, Vy` (R146) -/
  | addReg (x y : Reg)
  /-- 8xy5 `SUB Vx, Vy` (R147) -/
  | subReg (x y : Reg)
  /-- 8xy6 `SHR Vx` (R148). The field `y` is decoded and not used (R85); it is kept so that the word is not lost. -/
  | shr (x y : Reg)
  /-- 8xy7 `SUBN Vx, Vy` (R149) -/
  | subnReg (x y : Reg)
  /-- 8xyE `SHL Vx` (R150). The field `y` is decoded and not used (R85). -/
  | shl (x y : Reg)
  /-- 9xy0 `SNE Vx, Vy` (R127) -/
  | sneReg (x y : Reg)
  /-- Annn `LD I, nnn` (R170) -/
  | ldI (nnn : Addr12)
  /-- Bnnn `JP V0, nnn` (R123) -/
  | jpV0 (nnn : Addr12)
  /-- Cxkk `RND Vx, kk` (R151) -/
  | rnd (x : Reg) (kk : Byte)
  /-- Dxyn `DRW Vx, Vy, n` (R192). The row count is a number; WellFormed checks that the 4-bit field holds it. -/
  | drw (x y : Reg) (n : Nat)
  /-- Ex9E `SKP Vx` (R210) -/
  | skp (x : Reg)
  /-- ExA1 `SKNP Vx` (R211) -/
  | sknp (x : Reg)
  /-- Fx07 `LD Vx, DT` (R212) -/
  | ldVxDt (x : Reg)
  /-- Fx0A `LD Vx, K` (R214) -/
  | ldVxK (x : Reg)
  /-- Fx15 `LD DT, Vx` (R216) -/
  | ldDtVx (x : Reg)
  /-- Fx18 `LD ST, Vx` (R217) -/
  | ldStVx (x : Reg)
  /-- Fx1E `ADD I, Vx` (R171) -/
  | addIVx (x : Reg)
  /-- Fx29 `LD F, Vx` (R172) -/
  | ldFVx (x : Reg)
  /-- Fx33 `LD B, Vx` (R174) -/
  | ldBVx (x : Reg)
  /-- Fx55 `LD [I], Vx` (R176) -/
  | storeRegs (x : Reg)
  /-- Fx65 `LD Vx, [I]` (R178) -/
  | loadRegs (x : Reg)
deriving DecidableEq, Repr

end Sys2Proof
end

