-- ==== Sys2Proof/Decode.lean ====
section
/-! DEFINITION. Instruction words and instructions (30_encoding.md): the fields of a word (R81), the decoder (R86, R90,
R92), the encoder and the opcode table as rows of match and mask (R90). Decoding is a pure function of the word (R82). -/

namespace Sys2Proof

/-! ## Fields of a word (R81) -/

/-- The category `c = w[15:12]`. -/
def fieldC (w : Word) : Nat := (w.extractLsb' 12 4).toNat

/-- The register number `x = w[11:8]`. -/
def fieldX (w : Word) : Reg := (w.extractLsb' 8 4).toFin

/-- The register number `y = w[7:4]`. -/
def fieldY (w : Word) : Reg := (w.extractLsb' 4 4).toFin

/-- The count or function code `n = w[3:0]`. -/
def fieldN (w : Word) : Nat := (w.extractLsb' 0 4).toNat

/-- The immediate byte `kk = w[7:0]`. -/
def fieldKK (w : Word) : Byte := w.extractLsb' 0 8

/-- The address `nnn = w[11:0]`. -/
def fieldNNN (w : Word) : Addr12 := w.extractLsb' 0 12

/-! ## Decoding -/

/-- Why bytes are no instruction. -/
inductive DecodeError where
  /-- The word matches no row of R90: the machine raises `UnknownOpcode` (R92, R236). -/
  | unknownOpcode (w : Word)
  /-- Fewer than two bytes: no instruction is shorter (R80). The machine never gives its decoder fewer. -/
  | truncated
deriving DecidableEq, Repr

/-- The decoder (R86, R90): by category, then by the whole word (0), by `n` (5, 8, 9) or by `kk` (E, F). -/
def decode (w : Word) : Except DecodeError Instr :=
  match fieldC w with
  | 0x0 => if w = 0x00E0#16 then .ok .cls else if w = 0x00EE#16 then .ok .ret else .error (.unknownOpcode w)
  | 0x1 => .ok (.jp (fieldNNN w))
  | 0x2 => .ok (.call (fieldNNN w))
  | 0x3 => .ok (.seImm (fieldX w) (fieldKK w))
  | 0x4 => .ok (.sneImm (fieldX w) (fieldKK w))
  | 0x5 => if fieldN w = 0 then .ok (.seReg (fieldX w) (fieldY w)) else .error (.unknownOpcode w)
  | 0x6 => .ok (.ldImm (fieldX w) (fieldKK w))
  | 0x7 => .ok (.addImm (fieldX w) (fieldKK w))
  | 0x8 =>
    match fieldN w with
    | 0x0 => .ok (.ldReg (fieldX w) (fieldY w))
    | 0x1 => .ok (.orReg (fieldX w) (fieldY w))
    | 0x2 => .ok (.andReg (fieldX w) (fieldY w))
    | 0x3 => .ok (.xorReg (fieldX w) (fieldY w))
    | 0x4 => .ok (.addReg (fieldX w) (fieldY w))
    | 0x5 => .ok (.subReg (fieldX w) (fieldY w))
    | 0x6 => .ok (.shr (fieldX w) (fieldY w))
    | 0x7 => .ok (.subnReg (fieldX w) (fieldY w))
    | 0xE => .ok (.shl (fieldX w) (fieldY w))
    | _ => .error (.unknownOpcode w)
  | 0x9 => if fieldN w = 0 then .ok (.sneReg (fieldX w) (fieldY w)) else .error (.unknownOpcode w)
  | 0xA => .ok (.ldI (fieldNNN w))
  | 0xB => .ok (.jpV0 (fieldNNN w))
  | 0xC => .ok (.rnd (fieldX w) (fieldKK w))
  | 0xD => .ok (.drw (fieldX w) (fieldY w) (fieldN w))
  | 0xE =>
    match (fieldKK w).toNat with
    | 0x9E => .ok (.skp (fieldX w))
    | 0xA1 => .ok (.sknp (fieldX w))
    | _ => .error (.unknownOpcode w)
  | 0xF =>
    match (fieldKK w).toNat with
    | 0x07 => .ok (.ldVxDt (fieldX w))
    | 0x0A => .ok (.ldVxK (fieldX w))
    | 0x15 => .ok (.ldDtVx (fieldX w))
    | 0x18 => .ok (.ldStVx (fieldX w))
    | 0x1E => .ok (.addIVx (fieldX w))
    | 0x29 => .ok (.ldFVx (fieldX w))
    | 0x33 => .ok (.ldBVx (fieldX w))
    | 0x55 => .ok (.storeRegs (fieldX w))
    | 0x65 => .ok (.loadRegs (fieldX w))
    | _ => .error (.unknownOpcode w)
  | _ => .error (.unknownOpcode w)

/-- A word from its two bytes, the byte at the lower address first and more significant (R65, R80). -/
def wordOfBytes (high low : Byte) : Word := high ++ low

/-- The two bytes of a word in memory order, high byte first (R65). -/
def bytesOfWord (w : Word) : List Byte := [w.extractLsb' 8 8, w.extractLsb' 0 8]

/-- Decode the instruction at the front of a list of bytes and give the rest of the list. -/
def decodeBytes : List Byte → Except DecodeError (Instr × List Byte)
  | high :: low :: rest =>
    match decode (wordOfBytes high low) with
    | .ok i => .ok (i, rest)
    | .error e => .error e
  | _ => .error .truncated

/-- The instruction the decoder reads from a word given as the opcode table numbers its bits: one 16-bit word, laid
out high byte first. A row of more than 16 bits does not exist on this hardware. -/
def decodeTableWord (nbits w : Nat) : Option Instr :=
  if nbits ≤ 16 then
    match decodeBytes (bytesOfWord (BitVec.ofNat 16 (w % 2 ^ nbits))) with
    | .ok (i, _) => some i
    | .error _ => none
  else none

/-! ## Encoding (the formats of R83) -/

/-- A register number as a 4-bit field. -/
def regField (x : Reg) : BitVec 4 := BitVec.ofFin x

/-- Format A: category and address. -/
def encodeA (c : BitVec 4) (nnn : Addr12) : Word := c ++ nnn

/-- Formats K and S: category, register and byte (an immediate, or a fixed function byte). -/
def encodeK (c : BitVec 4) (x : Reg) (kk : Byte) : Word := c ++ regField x ++ kk

/-- Formats R and D: category, two registers and a nibble (a fixed function code, or a row count). -/
def encodeR (c : BitVec 4) (x y : Reg) (n : BitVec 4) : Word := c ++ regField x ++ regField y ++ n

/-- The word of a well-formed instruction (R83, R90). -/
def encode : Instr → Word
  | .cls => 0x00E0#16
  | .ret => 0x00EE#16
  | .jp nnn => encodeA 0x1#4 nnn
  | .call nnn => encodeA 0x2#4 nnn
  | .seImm x kk => encodeK 0x3#4 x kk
  | .sneImm x kk => encodeK 0x4#4 x kk
  | .seReg x y => encodeR 0x5#4 x y 0x0#4
  | .ldImm x kk => encodeK 0x6#4 x kk
  | .addImm x kk => encodeK 0x7#4 x kk
  | .ldReg x y => encodeR 0x8#4 x y 0x0#4
  | .orReg x y => encodeR 0x8#4 x y 0x1#4
  | .andReg x y => encodeR 0x8#4 x y 0x2#4
  | .xorReg x y => encodeR 0x8#4 x y 0x3#4
  | .addReg x y => encodeR 0x8#4 x y 0x4#4
  | .subReg x y => encodeR 0x8#4 x y 0x5#4
  | .shr x y => encodeR 0x8#4 x y 0x6#4
  | .subnReg x y => encodeR 0x8#4 x y 0x7#4
  | .shl x y => encodeR 0x8#4 x y 0xE#4
  | .sneReg x y => encodeR 0x9#4 x y 0x0#4
  | .ldI nnn => encodeA 0xA#4 nnn
  | .jpV0 nnn => encodeA 0xB#4 nnn
  | .rnd x kk => encodeK 0xC#4 x kk
  | .drw x y n => encodeR 0xD#4 x y (BitVec.ofNat 4 n)
  | .skp x => encodeK 0xE#4 x 0x9E#8
  | .sknp x => encodeK 0xE#4 x 0xA1#8
  | .ldVxDt x => encodeK 0xF#4 x 0x07#8
  | .ldVxK x => encodeK 0xF#4 x 0x0A#8
  | .ldDtVx x => encodeK 0xF#4 x 0x15#8
  | .ldStVx x => encodeK 0xF#4 x 0x18#8
  | .addIVx x => encodeK 0xF#4 x 0x1E#8
  | .ldFVx x => encodeK 0xF#4 x 0x29#8
  | .ldBVx x => encodeK 0xF#4 x 0x33#8
  | .storeRegs x => encodeK 0xF#4 x 0x55#8
  | .loadRegs x => encodeK 0xF#4 x 0x65#8

/-- The bytes of an instruction in memory order. -/
def encodeBytes (i : Instr) : List Byte := bytesOfWord (encode i)

/-! ## The opcode table as match and mask (R90) -/

/-- One row of the table: a word `w` is the row's instruction when `w AND mask = value`. -/
structure OpcodeRow where
  value : Word
  mask : Word
deriving DecidableEq, Repr

/-- The word matches the row. -/
def OpcodeRow.accepts (r : OpcodeRow) (w : Word) : Bool := w &&& r.mask == r.value

/-- The row of an instruction, copied from R90's columns match and mask. -/
def Instr.row : Instr → OpcodeRow
  | .cls => ⟨0x00E0, 0xFFFF⟩
  | .ret => ⟨0x00EE, 0xFFFF⟩
  | .jp _ => ⟨0x1000, 0xF000⟩
  | .call _ => ⟨0x2000, 0xF000⟩
  | .seImm _ _ => ⟨0x3000, 0xF000⟩
  | .sneImm _ _ => ⟨0x4000, 0xF000⟩
  | .seReg _ _ => ⟨0x5000, 0xF00F⟩
  | .ldImm _ _ => ⟨0x6000, 0xF000⟩
  | .addImm _ _ => ⟨0x7000, 0xF000⟩
  | .ldReg _ _ => ⟨0x8000, 0xF00F⟩
  | .orReg _ _ => ⟨0x8001, 0xF00F⟩
  | .andReg _ _ => ⟨0x8002, 0xF00F⟩
  | .xorReg _ _ => ⟨0x8003, 0xF00F⟩
  | .addReg _ _ => ⟨0x8004, 0xF00F⟩
  | .subReg _ _ => ⟨0x8005, 0xF00F⟩
  | .shr _ _ => ⟨0x8006, 0xF00F⟩
  | .subnReg _ _ => ⟨0x8007, 0xF00F⟩
  | .shl _ _ => ⟨0x800E, 0xF00F⟩
  | .sneReg _ _ => ⟨0x9000, 0xF00F⟩
  | .ldI _ => ⟨0xA000, 0xF000⟩
  | .jpV0 _ => ⟨0xB000, 0xF000⟩
  | .rnd _ _ => ⟨0xC000, 0xF000⟩
  | .drw _ _ _ => ⟨0xD000, 0xF000⟩
  | .skp _ => ⟨0xE09E, 0xF0FF⟩
  | .sknp _ => ⟨0xE0A1, 0xF0FF⟩
  | .ldVxDt _ => ⟨0xF007, 0xF0FF⟩
  | .ldVxK _ => ⟨0xF00A, 0xF0FF⟩
  | .ldDtVx _ => ⟨0xF015, 0xF0FF⟩
  | .ldStVx _ => ⟨0xF018, 0xF0FF⟩
  | .addIVx _ => ⟨0xF01E, 0xF0FF⟩
  | .ldFVx _ => ⟨0xF029, 0xF0FF⟩
  | .ldBVx _ => ⟨0xF033, 0xF0FF⟩
  | .storeRegs _ => ⟨0xF055, 0xF0FF⟩
  | .loadRegs _ => ⟨0xF065, 0xF0FF⟩

/-- The 34 rows of R90 in the table's order. -/
def opcodeTable : List OpcodeRow :=
  [⟨0x00E0, 0xFFFF⟩, ⟨0x00EE, 0xFFFF⟩, ⟨0x1000, 0xF000⟩, ⟨0x2000, 0xF000⟩, ⟨0x3000, 0xF000⟩, ⟨0x4000, 0xF000⟩,
   ⟨0x5000, 0xF00F⟩, ⟨0x6000, 0xF000⟩, ⟨0x7000, 0xF000⟩, ⟨0x8000, 0xF00F⟩, ⟨0x8001, 0xF00F⟩, ⟨0x8002, 0xF00F⟩] ++
  [⟨0x8003, 0xF00F⟩, ⟨0x8004, 0xF00F⟩, ⟨0x8005, 0xF00F⟩, ⟨0x8006, 0xF00F⟩, ⟨0x8007, 0xF00F⟩, ⟨0x800E, 0xF00F⟩,
   ⟨0x9000, 0xF00F⟩, ⟨0xA000, 0xF000⟩, ⟨0xB000, 0xF000⟩, ⟨0xC000, 0xF000⟩, ⟨0xD000, 0xF000⟩, ⟨0xE09E, 0xF0FF⟩] ++
  [⟨0xE0A1, 0xF0FF⟩, ⟨0xF007, 0xF0FF⟩, ⟨0xF00A, 0xF0FF⟩, ⟨0xF015, 0xF0FF⟩, ⟨0xF018, 0xF0FF⟩, ⟨0xF01E, 0xF0FF⟩,
   ⟨0xF029, 0xF0FF⟩, ⟨0xF033, 0xF0FF⟩, ⟨0xF055, 0xF0FF⟩, ⟨0xF065, 0xF0FF⟩]

end Sys2Proof
end

