-- ==== Sys2Proof/Config.lean ====
section
/-! DEFINITION. The implementation parameters of 00_scope.md R12 with their defaults, and the one free value of the
model, the random draw of Cxkk (R109). SCHEDULE is the field `schedule` of State; CYCLES_PER_STEP is out of the model
(log entry 12). -/

namespace Sys2Proof

/-- `I_WIDTH` (R33, decision D6): how many bits of a value a write of I keeps. -/
inductive IndexWidth where
  | w16
  | w12
deriving DecidableEq, Repr

/-- `FONT_DIGIT_MODE` (R172, decision D8): which digit Fx29 takes from Vx. -/
inductive FontDigitMode where
  | lowNibble
  | full
deriving DecidableEq, Repr

/-- `KEY_INDEX_MODE` (R213, decision D9): which key Ex9E and ExA1 take from Vx. -/
inductive KeyIndexMode where
  | lowNibble
  | full
deriving DecidableEq, Repr

/-- The default bytes of `FONT_ROM`: the table of 70_reset_and_hazards.md R276, five bytes a digit, digit 0 first.
PRESUMED by the spec itself (its general-knowledge item G2, log entry 4). -/
def defaultFont : Vector Byte 80 := #v[
  0xF0, 0x90, 0x90, 0x90, 0xF0,  0x20, 0x60, 0x20, 0x20, 0x70,
  0xF0, 0x10, 0xF0, 0x80, 0xF0,  0xF0, 0x10, 0xF0, 0x10, 0xF0,
  0x90, 0x90, 0xF0, 0x10, 0x10,  0xF0, 0x80, 0xF0, 0x10, 0xF0,
  0xF0, 0x80, 0xF0, 0x90, 0xF0,  0xF0, 0x10, 0x20, 0x40, 0x40,
  0xF0, 0x90, 0xF0, 0x90, 0xF0,  0xF0, 0x90, 0xF0, 0x10, 0xF0,
  0xF0, 0x90, 0xF0, 0x90, 0x90,  0xE0, 0x90, 0xE0, 0x90, 0xE0,
  0xF0, 0x80, 0x80, 0x80, 0xF0,  0xE0, 0x90, 0x90, 0x90, 0xE0,
  0xF0, 0x80, 0xF0, 0x80, 0xF0,  0xF0, 0x80, 0xF0, 0x80, 0x80]

/-- The parameters of one CORE instance (R12). They are fixed for the instance: no transaction changes them (R46). The
record stands in State so that every statement holds for every choice of them (log entry 3). -/
structure Config where
  /-- `I_WIDTH`, default 16 (D6). -/
  iWidth : IndexWidth := .w16
  /-- `VF_LAST`, default true: the flag is written after the result (R153, D3). -/
  vfLast : Bool := true
  /-- `FX1E_SETS_VF`, default false (R171, D7). -/
  fx1eSetsVf : Bool := false
  /-- `FONT_DIGIT_MODE`, default the low nibble (R172, D8). -/
  fontDigitMode : FontDigitMode := .lowNibble
  /-- `KEY_INDEX_MODE`, default the low nibble (R213, D9). -/
  keyIndexMode : KeyIndexMode := .lowNibble
  /-- `FONT_ROM`, 80 bytes (R276, D17). -/
  fontRom : Vector Byte 80 := defaultFont
deriving DecidableEq, Repr

/-- FREE VALUE. The draw of the `n`-th Cxkk whose STEP came with no draw of its own (R109, R151: "no rule assumes
anything of it"). It has no body, so no proof can see a value of it (log entry 2). -/
opaque Config.freeDraw : Nat → Byte

end Sys2Proof
end

