-- ==== Sys2Proof/Machine/State.lean ====
section
/-! DEFINITION. The state of the CORE as plain data (10_state.md, 20_memory.md R60), the host's transactions and what
they return (00_scope.md R13), the reasons a step can stop, and the state after reset (R48, R270). -/

namespace Sys2Proof.Machine

/-- `RUN`, the run state (R42). -/
inductive RunState where
  /-- The next STEP fetches at PC. -/
  | running
  /-- Fx0A with this destination register is suspended; the next STEP re-attempts it without a fetch. -/
  | waiting (r : Reg)
  /-- An error was reported: no step executes until RESET. -/
  | faulted
deriving DecidableEq, Repr

/-- The kind of an error (R44, R230). -/
inductive ErrKind where
  | none
  | stackOverflow
  | stackUnderflow
  /-- Defined by R230 and raised by nothing, since every address is reduced first (R63, R240). -/
  | memoryOutOfRange
  | unknownOpcode
  | loadOverflow
deriving DecidableEq, Repr

/-- `ERR`, the error record (R44): the kind, the PC of the failing step and the fetched word. -/
structure ErrRecord where
  kind : ErrKind
  pc : Word
  opcode : Word
deriving DecidableEq, Repr

/-- `FB` (R40): 32 rows of 64 one-bit pixels. Bit `px` of row `py` is the pixel `FB[px][py]`. -/
abbrev Frame := Vector (BitVec 64) 32

/-- `MEM` (R60) as the list of the bytes that differ from the reset contents, in one canonical form (`Memory.wf`). -/
abbrev Memory := List Host.Cell

/-- A transaction of the host (R13). Each is atomic. -/
inductive Transaction where
  /-- `RESET` (R270) -/
  | reset
  /-- `LOAD(start, bytes)` (R280) -/
  | load (start : Nat) (bytes : List Byte)
  /-- `KEY_WRITE(keys)` (R256): key `k` is pressed when bit `k` is 1. -/
  | keyWrite (keys : BitVec 16)
  /-- `TICK` (R250) -/
  | tick
  /-- `STEP(rand)` (R100) -/
  | step (rand : Byte)
  /-- `FB_READ` (R258) -/
  | fbRead
  /-- `DEBUG_READ` (R260) -/
  | debugRead
deriving DecidableEq, Repr

/-- The whole state of the machine. The first thirteen fields are the spec's tuple (V, I, PC, SP, STACK, DT, ST, FB,
KEYS, RUN, BASE, ERR, MEM); the last four are the model's own. -/
structure State where
  /-- `V0` to `VF` (R30); `VF` is the flag (R31). -/
  v : Vector Byte 16
  /-- The index register `I` (R33). -/
  i : Word
  /-- The program counter `PC` (R34). -/
  pc : Word
  /-- The stack pointer `SP` (R36): how many return addresses the stack holds. -/
  sp : Byte
  /-- The return-address stack `STACK` (R37). -/
  stack : Vector Word 16
  /-- The delay timer `DT` (R38). -/
  dt : Byte
  /-- The sound timer `ST` (R39). -/
  st : Byte
  /-- The display buffer `FB` (R40). -/
  fb : Frame
  /-- The keypad `KEYS` (R41): bit `k` is key `k`. -/
  keys : BitVec 16
  /-- The run state `RUN` (R42). -/
  run : RunState
  /-- The key-edge baseline `BASE` (R43): bit `k` is key `k`. -/
  base : BitVec 16
  /-- The error record `ERR` (R44). -/
  err : ErrRecord
  /-- The memory `MEM` (R60). -/
  mem : Memory
  /-- MODEL'S OWN: the parameters of this CORE instance (R12). No transaction changes them (log entry 3). -/
  cfg : Config
  /-- MODEL'S OWN: the transactions the host is still to issue, the next one first (R12's `SCHEDULE`). When the list is
  empty the host issues a STEP with a free draw (log entry 1). -/
  schedule : List Transaction
  /-- MODEL'S OWN: the `rand` input of the STEP under way (R100); `none` when it is left free (log entry 2). -/
  rand : Option Byte
  /-- MODEL'S OWN: how many free draws Cxkk has consumed (log entry 2). -/
  draws : Nat
deriving DecidableEq, Repr

/-- Why the machine stops without a next state. The spec's error kinds are no faults of this type: their entry is a
next state with `RUN = FAULTED` (R234). -/
inductive Fault where
  /-- Raised by 2nnn with SP above 16 and by 00EE with SP above 16, values of SP that R36 and R47 call never reached, and
  for which no stack entry exists. SAFE: the machine stops where the hardware cannot be (log entry 6). -/
  | stackPointerIllegal
deriving DecidableEq, Repr

/-- Why an instruction has no meaning. -/
inductive Refusal where
  /-- Raised by exec for an instruction whose meaning is not written. SAFE: the machine stops. No arm of this model
  raises it. -/
  | notModelled (mnemonic : String)
deriving DecidableEq, Repr

/-- What one step answers. -/
abbrev Result := Host.Outcome State Fault Refusal

/-- What `DEBUG_READ` returns (R260): MEM as its 4,096 bytes from address 0, and every register of the CORE. -/
structure DebugView where
  mem : List Byte
  v : Vector Byte 16
  pc : Word
  sp : Byte
  i : Word
  dt : Byte
  st : Byte
  stack : Vector Word 16
  keys : BitVec 16
  run : RunState
  base : BitVec 16
  err : ErrRecord
deriving DecidableEq, Repr

/-- The output `STATUS` (R261): the run state and the error record, the kind as its code of R230. -/
structure Status where
  run : RunState
  code : Nat
  pc : Word
  opcode : Word
deriving DecidableEq, Repr

/-- What a transaction returns to the host (R13, R100, R258, R260). -/
inductive Reply where
  /-- The transaction returns nothing (RESET, LOAD that fits, KEY_WRITE, TICK). -/
  | done
  | executed
  | waiting
  | error (kind : ErrKind)
  | halted
  | pixels (fb : Frame)
  | snapshot (view : DebugView)
deriving DecidableEq, Repr

/-- The error record with no error in it (R44). -/
def ErrRecord.empty : ErrRecord := { kind := .none, pc := 0, opcode := 0 }

/-- The machine right after `RESET` (R48, R270, R272). MEM lists nothing: every byte reads as the reset contents, the
font and then zeros. The four fields of the model's own hold the values of log entries 1, 2 and 3. -/
def State.reset : State where
  v := Vector.replicate 16 0
  i := 0
  pc := 0x0200
  sp := 0
  stack := Vector.replicate 16 0
  dt := 0
  st := 0
  fb := Vector.replicate 32 0
  keys := 0
  run := .running
  base := 0
  err := ErrRecord.empty
  mem := []
  cfg := {}
  schedule := []
  rand := none
  draws := 0

end Sys2Proof.Machine
end

