-- ==== Sys2Proof/Machine/Ops.lean ====
section
/-! DEFINITION. The named operations over memory, registers, the stack and the framebuffer that the meanings share, and
the error entry of the CORE with the only way back from it (20_memory.md, 10_state.md, 60_exceptions.md R232 to R235). -/

namespace Sys2Proof.Machine

/-! ## Memory (20_memory.md) -/

/-- What a byte that nothing has written reads as: the reset contents of MEM, the font in 0x000 to 0x04F and zero
above it (R60, R272). -/
def background (font : Vector Byte 80) (a : Nat) : Byte := if h : a < 80 then font[a] else 0

/-- Read one byte of the list. -/
def Memory.read (bg : Nat → Byte) : Memory → Nat → Byte
  | [], a => bg a
  | (b, v) :: m, a => if a = b then v else Memory.read bg m a

/-- Write one byte, keeping the canonical form. -/
def Memory.write (bg : Nat → Byte) : Memory → Nat → Byte → Memory
  | [], a, v => if v = bg a then [] else [(a, v)]
  | (b, w) :: m, a, v =>
    if a < b then
      if v = bg a then (b, w) :: m else (a, v) :: (b, w) :: m
    else if a = b then
      if v = bg a then m else (a, v) :: m
    else (b, w) :: Memory.write bg m a v

/-- The canonical form: addresses of the 4,096-byte array (R60), strictly rising, no entry equal to what an unlisted
address reads as. -/
abbrev Memory.wf (bg : Nat → Byte) (m : Memory) : Prop :=
  m.Pairwise (fun c d => c.1 < d.1) ∧ ∀ c ∈ m, c.1 < 4096 ∧ c.2 ≠ bg c.1

/-- Every address is taken modulo 4096 before the access (R62). -/
def wrapAddr (a : Nat) : Nat := a % 4096

/-- `MemRead(a, 1)` (R16, R61). -/
def State.readByte (s : State) (a : Nat) : Byte :=
  Memory.read (background s.cfg.fontRom) s.mem (wrapAddr a)

/-- `MemWrite(a, 1, [v])` (R16, R61). -/
def State.writeByte (s : State) (a : Nat) (v : Byte) : State :=
  { s with mem := Memory.write (background s.cfg.fontRom) s.mem (wrapAddr a) v }

/-- `MemRead(a, n)` (R16, R62): the bytes at `a`, `a + 1`, and on. -/
def State.memRead (s : State) (a n : Nat) : List Byte :=
  (List.range n).map fun k => s.readByte (a + k)

/-- `MemWrite(a, n, bytes)` (R16, R62): the bytes to `a`, `a + 1`, and on, in order. -/
def State.memWrite (s : State) (a : Nat) : List Byte → State
  | [] => s
  | b :: bs => State.memWrite (s.writeByte a b) (a + 1) bs

/-- `Fetch(pc)` (R102): the word at PC, high byte first. -/
def State.fetchWord (s : State) : Word :=
  wordOfBytes (s.readByte s.pc.toNat) (s.readByte (s.pc.toNat + 1))

/-! ## Registers -/

/-- `V[x]` (R16). -/
def State.reg (s : State) (x : Reg) : Byte := s.v[x]

/-- `V[x] <- b` (R16, R30). -/
def State.setReg (s : State) (x : Reg) (b : Byte) : State := { s with v := s.v.set x.val b x.isLt }

/-- A value as I keeps it: modulo `2^I_WIDTH` (R33). -/
def maskIndex (w : IndexWidth) (v : Nat) : Word :=
  match w with
  | .w16 => BitVec.ofNat 16 v
  | .w12 => BitVec.ofNat 16 (v % 4096)

/-- `I <- v` (R16, R33). -/
def State.setI (s : State) (v : Nat) : State := { s with i := maskIndex s.cfg.iWidth v }

/-- `pc <- target` (R16, R34). -/
def State.setPc (s : State) (target : Word) : State := { s with pc := target }

/-- `pc <- pc0 + 2` (R104). -/
def State.advance (s : State) : State := s.setPc (s.pc + 2)

/-- `pc <- pc0 + 4` when the condition holds, else `pc <- pc0 + 2` (R104, R128). -/
def State.skipIf (s : State) (c : Bool) : State := s.setPc (if c then s.pc + 4 else s.pc + 2)

/-! ## The return-address stack (R36, R37) -/

/-- `STACK[SP] <- w; SP <- SP + 1`; nothing when no entry has that number. -/
def State.push (s : State) (w : Word) : Option State :=
  if s.sp.toNat < 16 then
    some { s with stack := s.stack.setIfInBounds s.sp.toNat w, sp := s.sp + 1 }
  else none

/-- `SP <- SP - 1` and the value of `STACK[SP]`; nothing when no entry has that number. The entry is not cleared. -/
def State.pop (s : State) : Option (Word × State) :=
  match s.stack[(s.sp - 1).toNat]? with
  | some w => some (w, { s with sp := s.sp - 1 })
  | none => none

/-! ## The framebuffer (R40, R191) -/

/-- The pixel `FB[px][py]`. -/
def Frame.pixel (f : Frame) (px : Fin 64) (py : Fin 32) : Bool := f[py].getLsbD px

/-- `FB[px][py] <- FB[px][py] XOR 1`. -/
def Frame.toggle (f : Frame) (px : Fin 64) (py : Fin 32) : Frame :=
  f.set py.val (f[py] ^^^ BitVec.twoPow 64 px.val) py.isLt

/-- Every pixel off. -/
def Frame.clear : Frame := Vector.replicate 32 0

/-! ## Errors: entry and return -/

/-- Reporting an error (R232, R234): the record is written and `RUN <- FAULTED`; nothing else changes. -/
def State.fail (s : State) (kind : ErrKind) (pc opcode : Word) : State :=
  { s with err := { kind := kind, pc := pc, opcode := opcode }, run := .faulted }

/-- `raise E(pc0, w)` inside a step (R16, R234): PC still holds `pc0` when an instruction raises. -/
def State.raise (s : State) (kind : ErrKind) (w : Word) : State := s.fail kind s.pc w

/-- `RESET` (R270), the only return from the error state (R235): every piece of state gets its reset value. The
instance's parameters, the transactions still to come and the count of draws are not state of the CORE and stay. -/
def State.hardReset (s : State) : State :=
  { State.reset with cfg := s.cfg, schedule := s.schedule, draws := s.draws }

/-- Store an instruction word where the next STEP fetches it, and let that STEP be the next transaction: the run state
is RUNNING and transactions scheduled before the first STEP are dropped (log entry 11). -/
def State.placeFetchWord (s : State) (w : Word) : State :=
  { s.memWrite s.pc.toNat (bytesOfWord w) with
    run := .running
    schedule := s.schedule.dropWhile fun t => match t with
      | .step _ => false
      | _ => true }

end Sys2Proof.Machine
end

