-- ==== Sys2Proof/Machine/Flags.lean ====
section
/-! DEFINITION. The flag values and the one write sequence of the flag-writing ALU instructions (42_alu.md R152, R153). -/

namespace Sys2Proof.Machine

/-- A condition as the byte VF holds: 1 or 0. -/
def flagByte (b : Bool) : Byte := if b then 1 else 0

/-- The carry of 8xy4: the exact sum exceeds 255 (R146, R152). -/
def carryFlag (a b : Byte) : Byte := flagByte (decide (a.toNat + b.toNat > 255))

/-- The flag of 8xy5 and 8xy7: the minuend is strictly greater (R147, R149, R152). -/
def greaterFlag (a b : Byte) : Byte := flagByte (decide (a.toNat > b.toNat))

/-- The bit that 8xy6 shifts out (R148). -/
def shrFlag (a : Byte) : Byte := flagByte (a.getLsbD 0)

/-- The bit that 8xyE shifts out (R150). -/
def shlFlag (a : Byte) : Byte := flagByte (a.getLsbD 7)

/-- The flag of Fx1E under `FX1E_SETS_VF`: the exact sum exceeds 0xFFF (R171). -/
def indexOverflowFlag (i : Word) (b : Byte) : Byte := flagByte (decide (i.toNat + b.toNat > 0xFFF))

/-- `WriteResultAndFlag(x, res, flag)` (R153): with `VF_LAST` the flag is written last. -/
def State.writeResultAndFlag (s : State) (x : Reg) (res flag : Byte) : State :=
  if s.cfg.vfLast then (s.setReg x res).setReg vf flag else (s.setReg vf flag).setReg x res

end Sys2Proof.Machine
end

