-- ==== Sys2Proof/Machine/Operands.lean ====
section
/-! DEFINITION. The operand forms of the instructions beyond a plain register or immediate: an address field as a word
(R84), the digit of Fx29 (R172), the key test (R213), the draw of a step (R109), the decimal digits of Fx33 (R174) and
the register block of Fx55 and Fx65. -/

namespace Sys2Proof.Machine

/-- `zext_16(nnn)` (R84). -/
def zext12 (nnn : Addr12) : Word := nnn.setWidth 16

/-- The digit whose sprite Fx29 points at (R172). -/
def fontDigit (m : FontDigitMode) (b : Byte) : Nat :=
  match m with
  | .lowNibble => b.toNat % 16
  | .full => b.toNat

/-- `Pressed(v)` (R213). In the mode `full` a value above 15 names no key and reads 0. -/
def State.pressed (s : State) (b : Byte) : Bool :=
  match s.cfg.keyIndexMode with
  | .lowNibble => s.keys.getLsbD (b.toNat % 16)
  | .full => if b.toNat ≤ 15 then s.keys.getLsbD b.toNat else false

/-- The draw of the STEP under way (R109): the host's, or a free value. -/
def State.draw (s : State) : Byte := s.rand.getD (Config.freeDraw s.draws)

/-- Consuming the draw: a free draw is used once. -/
def State.consumeDraw (s : State) : State :=
  { s with draws := if s.rand.isSome then s.draws else s.draws + 1 }

/-- The hundreds, tens and units digits of a byte (R174). -/
def decimalDigits (b : Byte) : List Byte :=
  [BitVec.ofNat 8 (b.toNat / 100), BitVec.ofNat 8 (b.toNat / 10 % 10), BitVec.ofNat 8 (b.toNat % 10)]

/-- `V0` to `Vx`, ascending (R176): the first `x + 1` registers. -/
def State.regBlock (s : State) (x : Reg) : List Byte := s.v.toList.take (x.val + 1)

/-- `V[k] <- b` for the bytes of a list, ascending from register `k`. -/
def State.setRegsFrom (s : State) (k : Nat) : List Byte → State
  | [] => s
  | b :: bs => State.setRegsFrom (s.setReg (Fin.ofNat 16 k) b) (k + 1) bs

end Sys2Proof.Machine
end

