-- ==== Sys2Proof/Machine/Alu.lean ====
section
/-! DEFINITION. Register loads and the ALU (42_alu.md). Operands are read before any write, and each instruction ends
with `pc <- pc0 + 2`. -/

namespace Sys2Proof.Machine

/-- 6xkk `LD Vx, kk` (R140). -/
def execLdImm (x : Reg) (kk : Byte) (s : State) : Result := .next (s.setReg x kk).advance

/-- 7xkk `ADD Vx, kk` (R141): no flag. -/
def execAddImm (x : Reg) (kk : Byte) (s : State) : Result := .next (s.setReg x (s.reg x + kk)).advance

/-- 8xy0 `LD Vx, Vy` (R142). -/
def execLdReg (x y : Reg) (s : State) : Result := .next (s.setReg x (s.reg y)).advance

/-- 8xy1 `OR Vx, Vy` (R143). -/
def execOrReg (x y : Reg) (s : State) : Result := .next (s.setReg x (s.reg x ||| s.reg y)).advance

/-- 8xy2 `AND Vx, Vy` (R144). -/
def execAndReg (x y : Reg) (s : State) : Result := .next (s.setReg x (s.reg x &&& s.reg y)).advance

/-- 8xy3 `XOR Vx, Vy` (R145). -/
def execXorReg (x y : Reg) (s : State) : Result := .next (s.setReg x (s.reg x ^^^ s.reg y)).advance

/-- 8xy4 `ADD Vx, Vy` (R146): the flag is the carry. -/
def execAddReg (x y : Reg) (s : State) : Result :=
  .next (s.writeResultAndFlag x (s.reg x + s.reg y) (carryFlag (s.reg x) (s.reg y))).advance

/-- 8xy5 `SUB Vx, Vy` (R147): the flag is `vx > vy`. -/
def execSubReg (x y : Reg) (s : State) : Result :=
  .next (s.writeResultAndFlag x (s.reg x - s.reg y) (greaterFlag (s.reg x) (s.reg y))).advance

/-- 8xy7 `SUBN Vx, Vy` (R149): the flag is `vy > vx`. -/
def execSubnReg (x y : Reg) (s : State) : Result :=
  .next (s.writeResultAndFlag x (s.reg y - s.reg x) (greaterFlag (s.reg y) (s.reg x))).advance

/-- 8xy6 `SHR Vx` (R148): Vx is shifted, the `y` field is not used (R85). -/
def execShr (x _y : Reg) (s : State) : Result :=
  .next (s.writeResultAndFlag x (s.reg x >>> 1) (shrFlag (s.reg x))).advance

/-- 8xyE `SHL Vx` (R150): Vx is shifted by one bit, the `y` field is not used (R85). -/
def execShl (x _y : Reg) (s : State) : Result :=
  .next (s.writeResultAndFlag x (s.reg x <<< 1) (shlFlag (s.reg x))).advance

/-- Cxkk `RND Vx, kk` (R151). -/
def execRnd (x : Reg) (kk : Byte) (s : State) : Result :=
  .next (s.consumeDraw.setReg x (s.draw &&& kk)).advance

end Sys2Proof.Machine
end

