-- ==== Sys2Proof/Machine/Control.lean ====
section
/-! DEFINITION. Return, jumps, call and the skips on register values (41_control_flow.md). None of them writes VF. The
word an error records is the instruction's own word, which is the fetched one (log entry 9). -/

namespace Sys2Proof.Machine

/-- 00EE `RET` (R120, R239). -/
def execRet (s : State) : Result :=
  if s.sp = 0 then .next (s.raise .stackUnderflow (encode .ret))
  else
    match s.pop with
    | some (target, t) => .next (t.setPc target)
    | none => .fault .stackPointerIllegal

/-- 1nnn `JP nnn` (R121). -/
def execJp (nnn : Addr12) (s : State) : Result := .next (s.setPc (zext12 nnn))

/-- 2nnn `CALL nnn` (R122, R238): the pushed value is `pc0 + 2`. -/
def execCall (nnn : Addr12) (s : State) : Result :=
  if s.sp = 16 then .next (s.raise .stackOverflow (encode (.call nnn)))
  else
    match s.push (s.pc + 2) with
    | some t => .next (t.setPc (zext12 nnn))
    | none => .fault .stackPointerIllegal

/-- Bnnn `JP V0, nnn` (R123): the sum keeps 16 bits. -/
def execJpV0 (nnn : Addr12) (s : State) : Result := .next (s.setPc (zext12 nnn + (s.reg 0).setWidth 16))

/-- 3xkk `SE Vx, kk` (R124). -/
def execSeImm (x : Reg) (kk : Byte) (s : State) : Result := .next (s.skipIf (s.reg x == kk))

/-- 4xkk `SNE Vx, kk` (R125). -/
def execSneImm (x : Reg) (kk : Byte) (s : State) : Result := .next (s.skipIf (s.reg x != kk))

/-- 5xy0 `SE Vx, Vy` (R126). -/
def execSeReg (x y : Reg) (s : State) : Result := .next (s.skipIf (s.reg x == s.reg y))

/-- 9xy0 `SNE Vx, Vy` (R127). -/
def execSneReg (x y : Reg) (s : State) : Result := .next (s.skipIf (s.reg x != s.reg y))

end Sys2Proof.Machine
end

