-- ==== Sys2Proof/Machine/Display.lean ====
section
/-! DEFINITION. The display instructions (44_display.md): clear and XOR-draw, the latter as the loops of R192. -/

namespace Sys2Proof.Machine

/-- The framebuffer and the collision flag `hit` while a sprite is drawn (R192). -/
abbrev DrawState := Frame × Bool

/-- One set bit of a sprite: `hit` when the pixel was on, and the pixel flips. -/
def drawPixel (d : DrawState) (px : Fin 64) (py : Fin 32) : DrawState :=
  (d.1.toggle px py, d.2 || d.1.pixel px py)

/-- One sprite row at screen row `py`: bit 7 is drawn at column `vx`, bit 0 at `vx + 7`, modulo 64 (R193). -/
def drawRow (vx : Byte) (py : Fin 32) (row : Byte) (d : DrawState) : DrawState :=
  (List.range 8).foldl
    (fun acc c => if row.getLsbD (7 - c) then drawPixel acc (Fin.ofNat 64 (vx.toNat + c)) py else acc) d

/-- The sprite rows from row `r` on: row `r` at screen row `vy + r`, modulo 32 (R193). -/
def drawRows (vx vy : Byte) : Nat → List Byte → DrawState → DrawState
  | _, [], d => d
  | r, row :: rows, d => drawRows vx vy (r + 1) rows (drawRow vx (Fin.ofNat 32 (vy.toNat + r)) row d)

/-- 00E0 `CLS` (R190). -/
def execCls (s : State) : Result := .next (State.advance { s with fb := Frame.clear })

/-- Dxyn `DRW Vx, Vy, n` (R192): VF receives the collision flag on every draw. -/
def execDrw (x y : Reg) (n : Nat) (s : State) : Result :=
  let d := drawRows (s.reg x) (s.reg y) 0 (s.memRead s.i.toNat n) (s.fb, false)
  .next (State.setReg { s with fb := d.1 } vf (flagByte d.2)).advance

end Sys2Proof.Machine
end

