-- ==== Sys2Proof/Machine/Index.lean ====
section
/-! DEFINITION. The index register and the memory-block instructions (43_index_memory.md). None of the last three
changes I. -/

namespace Sys2Proof.Machine

/-- Annn `LD I, nnn` (R170). -/
def execLdI (nnn : Addr12) (s : State) : Result := .next (s.setI nnn.toNat).advance

/-- Fx1E `ADD I, Vx` (R171): VF is written under `FX1E_SETS_VF` only. -/
def execAddIVx (x : Reg) (s : State) : Result :=
  let t := s.setI (s.i.toNat + (s.reg x).toNat)
  .next (if s.cfg.fx1eSetsVf then t.setReg vf (indexOverflowFlag s.i (s.reg x)) else t).advance

/-- Fx29 `LD F, Vx` (R172). -/
def execLdFVx (x : Reg) (s : State) : Result :=
  .next (s.setI (fontDigit s.cfg.fontDigitMode (s.reg x) * 5)).advance

/-- Fx33 `LD B, Vx` (R174): hundreds at I, tens at I + 1, units at I + 2. -/
def execLdBVx (x : Reg) (s : State) : Result :=
  .next (s.memWrite s.i.toNat (decimalDigits (s.reg x))).advance

/-- Fx55 `LD [I], Vx` (R176). -/
def execStoreRegs (x : Reg) (s : State) : Result :=
  .next (s.memWrite s.i.toNat (s.regBlock x)).advance

/-- Fx65 `LD Vx, [I]` (R178). -/
def execLoadRegs (x : Reg) (s : State) : Result :=
  .next (s.setRegsFrom 0 (s.memRead s.i.toNat (x.val + 1))).advance

end Sys2Proof.Machine
end

