-- ==== Sys2Proof/Machine/Keypad.lean ====
section
/-! DEFINITION. The keypad and timer instructions (45_timers_keypad.md), and the re-attempt of a suspended Fx0A. -/

namespace Sys2Proof.Machine

/-- Ex9E `SKP Vx` (R210). -/
def execSkp (x : Reg) (s : State) : Result := .next (s.skipIf (s.pressed (s.reg x)))

/-- ExA1 `SKNP Vx` (R211). -/
def execSknp (x : Reg) (s : State) : Result := .next (s.skipIf (!s.pressed (s.reg x)))

/-- Fx07 `LD Vx, DT` (R212). -/
def execLdVxDt (x : Reg) (s : State) : Result := .next (s.setReg x s.dt).advance

/-- Fx15 `LD DT, Vx` (R216). -/
def execLdDtVx (x : Reg) (s : State) : Result := .next (State.advance { s with dt := s.reg x })

/-- Fx18 `LD ST, Vx` (R217). -/
def execLdStVx (x : Reg) (s : State) : Result := .next (State.advance { s with st := s.reg x })

/-- Fx0A `LD Vx, K`, the first attempt (R214): the keys held now become the baseline, and the CORE waits at this PC. -/
def execLdVxK (x : Reg) (s : State) : Result := .next { s with base := s.keys, run := .waiting x }

/-- The lowest-numbered key pressed now and not at the previous attempt (R215): `min E`, or none when E is empty. -/
def State.pressEdge (s : State) : Option Reg :=
  (List.finRange 16).find? fun k => s.keys.getLsbD k.val && !s.base.getLsbD k.val

/-- `WaitRetry(r)` (R215): the step taken while RUN = WAITING(r). It does not fetch. -/
def State.waitRetry (r : Reg) (s : State) : State :=
  match s.pressEdge with
  | none => { s with base := s.keys }
  | some k => State.advance { s.setReg r (BitVec.ofNat 8 k.val) with base := s.keys, run := .running }

end Sys2Proof.Machine
end

