-- ==== Sys2Proof/Machine/Ports.lean ====
section
/-! DEFINITION. The host's transactions other than STEP, the CORE's outputs and what each transaction returns
(60_exceptions.md §6 and §7, 70_reset_and_hazards.md §2 and §3). -/

namespace Sys2Proof.Machine

/-- A timer after one tick: one less, and never below zero (R38, R250). -/
def tickTimer (t : Byte) : Byte := if t.toNat > 0 then t - 1 else t

/-- `TICK` (R250), in every run state (R252). -/
def State.tick (s : State) : State := { s with dt := tickTimer s.dt, st := tickTimer s.st }

/-- `KEY_WRITE(keys)` (R256). -/
def State.keyWrite (s : State) (keys : BitVec 16) : State := { s with keys := keys }

/-- `LOAD(start, bytes)` (R280): a block that passes the end of memory is rejected whole (R281); one that fits is
written without wrapping. It acts in every run state (log entry 8). -/
def State.load (s : State) (start : Nat) (bytes : List Byte) : State :=
  if start + bytes.length > 4096 then s.fail .loadOverflow (BitVec.ofNat 16 start) 0
  else s.memWrite start bytes

/-- The output `TONE`: a level, on exactly while ST is not zero (R254). -/
def State.tone (s : State) : Bool := s.st != 0

/-- The numeric code of an error kind (R230). -/
def ErrKind.code : ErrKind → Nat
  | .none => 0
  | .stackOverflow => 1
  | .stackUnderflow => 2
  | .memoryOutOfRange => 3
  | .unknownOpcode => 4
  | .loadOverflow => 5

/-- The output `STATUS` (R261). -/
def State.status (s : State) : Status :=
  { run := s.run, code := s.err.kind.code, pc := s.err.pc, opcode := s.err.opcode }

/-- What `FB_READ` returns (R258). -/
def State.fbRead (s : State) : Frame := s.fb

/-- What `DEBUG_READ` returns (R260). -/
def State.debugRead (s : State) : DebugView :=
  { mem := s.memRead 0 4096, v := s.v, pc := s.pc, sp := s.sp, i := s.i, dt := s.dt, st := s.st, stack := s.stack,
    keys := s.keys, run := s.run, base := s.base, err := s.err }

/-- What a STEP from `before` to `after` returns (R100): `Halted` when RUN was FAULTED already, else by the run state
it leaves. -/
def stepReply (before after : State) : Reply :=
  match before.run, after.run with
  | .faulted, _ => .halted
  | _, .running => .executed
  | _, .waiting _ => .waiting
  | _, .faulted => .error after.err.kind

/-- What a transaction that takes `before` to `after` returns to the host (R13, R233). -/
def replyTo (t : Transaction) (before after : State) : Reply :=
  match t with
  | .reset => .done
  | .load start bytes => if start + bytes.length > 4096 then .error .loadOverflow else .done
  | .keyWrite _ => .done
  | .tick => .done
  | .step _ => stepReply before after
  | .fbRead => .pixels before.fbRead
  | .debugRead => .snapshot before.debugRead

/-- A TICK and a STEP presented in the same cycle are applied in this order (R264). -/
def sameCycle (rand : Byte) : List Transaction := [.tick, .step rand]

/-- The boot sequence of R284 as a schedule: RESET, the program loaded at 0x200 (R282), then the host's frame loop. -/
def bootSchedule (program : List Byte) (rest : List Transaction) : List Transaction :=
  .reset :: .load 0x200 program :: rest

end Sys2Proof.Machine
end

