-- ==== Sys2Proof/Machine/Cycle.lean ====
section
/-! DEFINITION. The STEP transaction (40_execution_cycle.md R100 to R107) and the application of one transaction of the
host (00_scope.md R13). -/

namespace Sys2Proof.Machine

/-- The part of STEP after the run-state checks: fetch, decode, execute (R100, R102, R103, R104). -/
def State.fetchExecute (s : State) : Result :=
  match decode s.fetchWord with
  | .ok i => exec i s
  | .error _ => .next (s.raise .unknownOpcode s.fetchWord)

/-- `STEP(rand)` (R100): FAULTED, then WAITING, then fetch, decode and execute (R242). `none` leaves the draw free. -/
def State.stepWith (s : State) (rand : Option Byte) : Result :=
  match s.run with
  | .faulted => .next s
  | .waiting r => .next (s.waitRetry r)
  | .running => State.fetchExecute { s with rand := rand }

/-- Apply one transaction of the host (R13). -/
def State.transact (s : State) (t : Transaction) : Result :=
  match t with
  | .reset => .next s.hardReset
  | .load start bytes => .next (s.load start bytes)
  | .keyWrite keys => .next (s.keyWrite keys)
  | .tick => .next s.tick
  | .step rand => s.stepWith (some rand)
  | .fbRead => .next s
  | .debugRead => .next s

/-- The next transaction of the host: the first of the schedule, and a STEP with a free draw once the schedule is used
up (log entry 1). -/
def State.nextTransaction (s : State) : Result :=
  match s.schedule with
  | [] => s.stepWith none
  | t :: rest => State.transact { s with schedule := rest } t

end Sys2Proof.Machine
end

