-- ==== Sys2Proof/Machine/Step.lean ====
section
/-! DEFINITION. One step of the machine: one atomic transaction of the host (R13, R72), a STEP of the CORE whenever the
schedule names no other; and the placing of an instruction where the next STEP fetches it. -/

namespace Sys2Proof.Machine

/-- One step: the host's next transaction. -/
def step (s : State) : Host.Outcome State Fault Refusal := s.nextTransaction

/-- `s` with the instruction whose bits are `w` stored at PC, high byte first, so that the very next step fetches and
runs it. The hardware's instructions have 16 bits; bits above `nbits` are 0. -/
def State.withFetchWord (s : State) (nbits w : Nat) : State :=
  s.placeFetchWord (BitVec.ofNat 16 (w % 2 ^ nbits))

end Sys2Proof.Machine
end

