-- ==== Sys2Proof/Safety.lean ====
section
/-! DEFINITION. What counts as a legal state (10_state.md R47), as a safe run (70_reset_and_hazards.md R292) and as the
end of a run (40_execution_cycle.md R111), in the terms the statements use. -/

namespace Sys2Proof.Machine

/-- MEM is in its canonical form. -/
abbrev State.MemLegal (s : State) : Prop := Memory.wf (background s.cfg.fontRom) s.mem

/-- SP is in 0 to 16 (R36, R47). -/
abbrev State.SpLegal (s : State) : Prop := s.sp.toNat ≤ 16

/-- With `I_WIDTH = 12`, bits 15:12 of I read 0 (R47). -/
abbrev State.IndexLegal (s : State) : Prop := s.cfg.iWidth = .w12 → s.i.toNat < 4096

/-- RUN is FAULTED exactly when ERR records an error (R234, R281); the record is empty otherwise (R44);
`MemoryOutOfRange` is never recorded (R63, R240). -/
abbrev State.ErrLegal (s : State) : Prop :=
  (s.run = .faulted ↔ s.err.kind ≠ .none) ∧ (s.err.kind = .none → s.err = ErrRecord.empty) ∧
    s.err.kind ≠ .memoryOutOfRange

/-- A legal state of the CORE: the invariant of the model. -/
abbrev State.Inv (s : State) : Prop := s.MemLegal ∧ s.SpLegal ∧ s.IndexLegal ∧ s.ErrLegal

/-- No error has been reported (R292). -/
abbrev State.Safe (s : State) : Prop := s.run ≠ .faulted

/-- A run of `k` steps from `s` reports no error. -/
def SafeRun : Nat → State → Prop
  | 0, s => s.Safe
  | k + 1, s => s.Safe ∧ ∃ t, step s = .next t ∧ SafeRun k t

/-- The word at PC is a jump to itself (R111). -/
abbrev State.AtSelfJump (s : State) : Prop := ∃ nnn, decode s.fetchWord = .ok (.jp nnn) ∧ zext12 nnn = s.pc

/-- The end of a run (R111). -/
abbrev State.Ended (s : State) : Prop := s.run = .faulted ∨ (s.run = .running ∧ s.AtSelfJump)

end Sys2Proof.Machine
end

