-- ==== Sys2Proof/Certificates/Slice0/Obligations.lean ====
section
/-! DEFINITION. The statements for the provers. The result statements give the whole next state as a record update, so
that every field an update does not name is unchanged; where memory or pixels are described point by point, the other
fields are pinned the same way. The encoding clauses say which words the instruction is read from. -/

open Sys2Proof Sys2Proof.Machine

namespace Sys2Proof.Machine

/-! ## Words the statements use -/

/-- Every word that matches the row `value` under `mask` (R90) is read as the instruction `mk` of the word. -/
abbrev Reads (mask value : Word) (mk : Word → Instr) : Prop := ∀ w : Word, w &&& mask = value → decode w = .ok (mk w)

/-- The general registers after `WriteResultAndFlag(x, res, flag)` with `VF_LAST = last` (R153). -/
def resultAndFlag (last : Bool) (v : Vector Byte 16) (x : Reg) (res flag : Byte) : Vector Byte 16 :=
  if last then (v.set x res).set 15 flag else (v.set 15 flag).set x res

/-- `I_WIDTH` as a number (R12). -/
def indexBits : IndexWidth → Nat
  | .w16 => 16
  | .w12 => 12

/-- The pixel at column `px` and row `py` is under a set bit of the sprite that `Dxyn` draws in `s` (R192, R193): row
byte `r` of the `n` bytes at I, bit `7 - c`, at column `vx + c` modulo 64 and row `vy + r` modulo 32. -/
def SpriteCovers (s : State) (x y : Reg) (n : Nat) (px : Fin 64) (py : Fin 32) : Prop :=
  ∃ r c : Nat, r < n ∧ c < 8 ∧ px.val = (s.v[x].toNat + c) % 64 ∧ py.val = (s.v[y].toNat + r) % 32 ∧
    (s.readByte (s.i.toNat + r)).getLsbD (7 - c) = true

/-- The host's next transaction in `s` is a STEP: with the draw `rand`, leaving `s0` but for what the STEP does. When
the schedule is used up the draw is left free. -/
def NextIsStep (s : State) (rand : Option Byte) (s0 : State) : Prop :=
  (s.schedule = [] ∧ rand = none ∧ s0 = s) ∨
    ∃ b rest, s.schedule = .step b :: rest ∧ rand = some b ∧ s0 = { s with schedule := rest }

/-- The general registers an instruction may write (the right column of R32's table; VF as a flag by R31). -/
def mayWrite (cfg : Config) : Instr → Reg → Bool
  | .cls, _ | .ret, _ | .jp _, _ | .call _, _ | .seImm _ _, _ | .sneImm _ _, _ | .seReg _ _, _ | .sneReg _ _, _ => false
  | .ldImm x _, r | .addImm x _, r | .ldReg x _, r | .orReg x _, r | .andReg x _, r | .xorReg x _, r => r == x
  | .addReg x _, r | .subReg x _, r | .shr x _, r | .subnReg x _, r | .shl x _, r => r == x || r == vf
  | .ldI _, _ | .jpV0 _, _ => false
  | .rnd x _, r => r == x
  | .drw _ _ _, r => r == vf
  | .skp _, _ | .sknp _, _ => false
  | .ldVxDt x, r => r == x
  | .ldVxK _, _ | .ldDtVx _, _ | .ldStVx _, _ => false
  | .addIVx _, r => cfg.fx1eSetsVf && r == vf
  | .ldFVx _, _ | .ldBVx _, _ | .storeRegs _, _ => false
  | .loadRegs x, r => r ≤ x

/-- The instructions that end with `pc <- pc0 + 2` and nothing else (R35): all but the jumps, call and return, the
skips and Fx0A. -/
def plainAdvance : Instr → Bool
  | .ret | .jp _ | .call _ | .jpV0 _ | .seImm _ _ | .sneImm _ _ | .seReg _ _ | .sneReg _ _ | .skp _ | .sknp _
  | .ldVxK _ => false
  | .cls | .ldImm _ _ | .addImm _ _ | .ldReg _ _ | .orReg _ _ | .andReg _ _ | .xorReg _ _ | .addReg _ _
  | .subReg _ _ | .shr _ _ | .subnReg _ _ | .shl _ _ | .ldI _ | .rnd _ _ | .drw _ _ _ | .ldVxDt _ | .ldDtVx _
  | .ldStVx _ | .addIVx _ | .ldFVx _ | .ldBVx _ | .storeRegs _ | .loadRegs _ => true

/-- The compare-and-skip instructions (R35). -/
def isSkip : Instr → Bool
  | .seImm _ _ | .sneImm _ _ | .seReg _ _ | .sneReg _ _ | .skp _ | .sknp _ => true
  | .ret | .jp _ | .call _ | .jpV0 _ | .ldVxK _ | .cls | .ldImm _ _ | .addImm _ _ | .ldReg _ _ | .orReg _ _
  | .andReg _ _ | .xorReg _ _ | .addReg _ _ | .subReg _ _ | .shr _ _ | .subnReg _ _ | .shl _ _ | .ldI _ | .rnd _ _
  | .drw _ _ _ | .ldVxDt _ | .ldDtVx _ | .ldStVx _ | .addIVx _ | .ldFVx _ | .ldBVx _ | .storeRegs _
  | .loadRegs _ => false

end Sys2Proof.Machine

/-! ## Encoding -/

/-- R90, R83: words written out bit by bit from the table are read as the instructions they stand for. -/
def Obligations.SampleWordsDecode : Prop :=
  decode 0b0000000011100000#16 = .ok .cls ∧
  decode 0b0010001000001010#16 = .ok (.call 0x20A) ∧
  decode 0b0011000000010000#16 = .ok (.seImm 0 0x10) ∧
  decode 0b1000000000010100#16 = .ok (.addReg 0 1) ∧
  decode 0b1000000100100110#16 = .ok (.shr 1 2) ∧
  decode 0b1101000000010101#16 = .ok (.drw 0 1 5) ∧
  decode 0b1110000010011110#16 = .ok (.skp 0) ∧
  decode 0b1111001001100101#16 = .ok (.loadRegs 2) ∧
  decode 0b0101000100100001#16 = .error (.unknownOpcode 0x5121)

/-- Every well-formed instruction, with every operand at every value, is read back from its word. -/
def Obligations.DecodeInvertsEncode : Prop :=
  ∀ i : Instr, i.wellFormed = true → decode (encode i) = .ok i

/-- Every word that is read as an instruction is the word of that instruction, which is well formed: no bit of a word is
dropped. For 8xy6 and 8xyE this rests on the model's choice of log entry 10 to keep the unused `y` as an operand: by R85
every `y` selects the same instruction. -/
def Obligations.EncodeInvertsDecode : Prop :=
  ∀ (w : Word) (i : Instr), decode w = .ok i → encode i = w ∧ i.wellFormed = true

/-- R90: the decoder accepts exactly the words that match a row of the table, as an instruction of that row, and every
word matches at most one row. -/
def Obligations.DecoderFollowsOpcodeTable : Prop :=
  (∀ w : Word, (∃ i, decode w = .ok i) ↔ ∃ r ∈ opcodeTable, w &&& r.mask = r.value) ∧
  (∀ (w : Word) (i : Instr), decode w = .ok i → i.row ∈ opcodeTable ∧ w &&& i.row.mask = i.row.value) ∧
  (∀ w : Word, ∀ r ∈ opcodeTable, ∀ q ∈ opcodeTable, w &&& r.mask = r.value → w &&& q.mask = q.value → r = q)

/-- R92: the unknown words are exactly the six kinds the rule lists. -/
def Obligations.UnknownWordsAreTheListed : Prop :=
  ∀ w : Word, decode w = .error (.unknownOpcode w) ↔
    (w.toNat / 4096 = 0 ∧ w.toNat ≠ 0x00E0 ∧ w.toNat ≠ 0x00EE) ∨
    (w.toNat / 4096 = 5 ∧ w.toNat % 16 ≠ 0) ∨
    (w.toNat / 4096 = 8 ∧ w.toNat % 16 ∈ [0x8, 0x9, 0xA, 0xB, 0xC, 0xD, 0xF]) ∨
    (w.toNat / 4096 = 9 ∧ w.toNat % 16 ≠ 0) ∨
    (w.toNat / 4096 = 0xE ∧ w.toNat % 256 ∉ [0x9E, 0xA1]) ∨
    (w.toNat / 4096 = 0xF ∧ w.toNat % 256 ∉ [0x07, 0x0A, 0x15, 0x18, 0x1E, 0x29, 0x33, 0x55, 0x65])

/-! ## Register loads and the ALU -/

/-- R140 to R145: the loads, the immediate add and the bitwise operations write Vx and nothing else, without a flag.
-/
def Obligations.LoadsAndLogicWriteOnlyVx : Prop :=
  (Reads 0xF000 0x6000 (fun w => .ldImm (fieldX w) (fieldKK w)) ∧
    ∀ x kk s, exec (.ldImm x kk) s = .next { s with v := s.v.set x kk, pc := s.pc + 2 }) ∧
  (Reads 0xF000 0x7000 (fun w => .addImm (fieldX w) (fieldKK w)) ∧
    ∀ x kk s, exec (.addImm x kk) s =
      .next { s with v := s.v.set x (BitVec.ofNat 8 (s.v[x].toNat + kk.toNat)), pc := s.pc + 2 }) ∧
  (Reads 0xF00F 0x8000 (fun w => .ldReg (fieldX w) (fieldY w)) ∧
    ∀ x y s, exec (.ldReg x y) s = .next { s with v := s.v.set x s.v[y], pc := s.pc + 2 }) ∧
  (Reads 0xF00F 0x8001 (fun w => .orReg (fieldX w) (fieldY w)) ∧
    ∀ x y s, exec (.orReg x y) s = .next { s with v := s.v.set x (s.v[x] ||| s.v[y]), pc := s.pc + 2 }) ∧
  (Reads 0xF00F 0x8002 (fun w => .andReg (fieldX w) (fieldY w)) ∧
    ∀ x y s, exec (.andReg x y) s = .next { s with v := s.v.set x (s.v[x] &&& s.v[y]), pc := s.pc + 2 }) ∧
  (Reads 0xF00F 0x8003 (fun w => .xorReg (fieldX w) (fieldY w)) ∧
    ∀ x y s, exec (.xorReg x y) s = .next { s with v := s.v.set x (s.v[x] ^^^ s.v[y]), pc := s.pc + 2 })

/-- R146, R147, R149, R153: add and subtract with the exact carry and the strict comparisons, the flag written last or
first as `VF_LAST` says. -/
def Obligations.AddAndSubtractWriteResultAndFlag : Prop :=
  (Reads 0xF00F 0x8004 (fun w => .addReg (fieldX w) (fieldY w)) ∧
    ∀ x y s, exec (.addReg x y) s =
      .next { s with
        v := resultAndFlag s.cfg.vfLast s.v x (BitVec.ofNat 8 (s.v[x].toNat + s.v[y].toNat))
          (if s.v[x].toNat + s.v[y].toNat > 255 then 1 else 0)
        pc := s.pc + 2 }) ∧
  (Reads 0xF00F 0x8005 (fun w => .subReg (fieldX w) (fieldY w)) ∧
    ∀ x y s, exec (.subReg x y) s =
      .next { s with
        v := resultAndFlag s.cfg.vfLast s.v x (BitVec.ofInt 8 ((s.v[x].toNat : Int) - s.v[y].toNat))
          (if s.v[x].toNat > s.v[y].toNat then 1 else 0)
        pc := s.pc + 2 }) ∧
  (Reads 0xF00F 0x8007 (fun w => .subnReg (fieldX w) (fieldY w)) ∧
    ∀ x y s, exec (.subnReg x y) s =
      .next { s with
        v := resultAndFlag s.cfg.vfLast s.v x (BitVec.ofInt 8 ((s.v[y].toNat : Int) - s.v[x].toNat))
          (if s.v[y].toNat > s.v[x].toNat then 1 else 0)
        pc := s.pc + 2 })

/-- R148, R150: the shifts by one bit of Vx whatever `y` is, the flag the bit shifted out. -/
def Obligations.ShiftsWriteResultAndShiftedOutBit : Prop :=
  (Reads 0xF00F 0x8006 (fun w => .shr (fieldX w) (fieldY w)) ∧
    ∀ x y s, exec (.shr x y) s =
      .next { s with
        v := resultAndFlag s.cfg.vfLast s.v x (BitVec.ofNat 8 (s.v[x].toNat / 2)) (BitVec.ofNat 8 (s.v[x].toNat % 2))
        pc := s.pc + 2 }) ∧
  (Reads 0xF00F 0x800E (fun w => .shl (fieldX w) (fieldY w)) ∧
    ∀ x y s, exec (.shl x y) s =
      .next { s with
        v := resultAndFlag s.cfg.vfLast s.v x (BitVec.ofNat 8 (s.v[x].toNat * 2)) (BitVec.ofNat 8 (s.v[x].toNat / 128))
        pc := s.pc + 2 })

/-- R151: Vx receives the draw supplied with the step under the mask `kk`, for every draw, and nothing else but PC
changes. -/
def Obligations.RandomWritesMaskedDraw : Prop :=
  Reads 0xF000 0xC000 (fun w => .rnd (fieldX w) (fieldKK w)) ∧
  ∀ x kk s r, s.rand = some r → exec (.rnd x kk) s = .next { s with v := s.v.set x (r &&& kk), pc := s.pc + 2 }

/-- The model's choice of log entry 2: when a STEP comes with no draw of its own, Cxkk masks a free value, and each
free value is used by one Cxkk. -/
def Obligations.FreeDrawIsUsedOnce : Prop :=
  ∀ x kk s, s.rand = none →
    exec (.rnd x kk) s =
      .next { s with v := s.v.set x (Config.freeDraw s.draws &&& kk), pc := s.pc + 2, draws := s.draws + 1 }

/-- R109: the draw of a step reaches Cxkk and no other instruction: every other one does the same under two draws. -/
def Obligations.DrawReachesOnlyRandom : Prop :=
  ∀ (i : Instr) (s t : State) (r : Option Byte), (∀ x kk, i ≠ .rnd x kk) → exec i s = .next t →
    exec i { s with rand := r } = .next { t with rand := r }

/-! ## Control flow -/

/-- R121: the jump writes PC and nothing else. -/
def Obligations.JumpWritesOnlyPc : Prop :=
  Reads 0xF000 0x1000 (fun w => .jp (fieldNNN w)) ∧
  ∀ nnn s, exec (.jp nnn) s = .next { s with pc := BitVec.ofNat 16 nnn.toNat }

/-- The jump through V0 writes PC and nothing else. That the sum keeps 16 bits is the spec's decision D4 (log entry
16). -/
def Obligations.JumpV0KeepsSixteenBits : Prop :=
  Reads 0xF000 0xB000 (fun w => .jpV0 (fieldNNN w)) ∧
  ∀ nnn s, exec (.jpV0 nnn) s = .next { s with pc := BitVec.ofNat 16 (nnn.toNat + s.v[0].toNat) }

/-- R122, R238: CALL pushes `pc0 + 2` and jumps when SP is below 16; at 16 it reports StackOverflow with the fetched
word, before the push. The sticky error and its record are the spec's decision D13 (log entries 5 and 16). -/
def Obligations.CallPushesOrOverflows : Prop :=
  Reads 0xF000 0x2000 (fun w => .call (fieldNNN w)) ∧
  (∀ nnn s, (h : s.sp.toNat < 16) →
    exec (.call nnn) s =
      .next { s with
        stack := s.stack.set s.sp.toNat (s.pc + 2) h
        sp := s.sp + 1
        pc := BitVec.ofNat 16 nnn.toNat }) ∧
  (∀ (w : Word) s, w &&& 0xF000 = 0x2000 → s.sp = 16 →
    exec (.call (fieldNNN w)) s =
      .next { s with run := .faulted, err := { kind := .stackOverflow, pc := s.pc, opcode := w } })

/-- R120, R239: RET returns to the entry below SP when SP is 1 to 16, and leaves the entry as it is; at 0 it reports
StackUnderflow. The sticky error and its record are the spec's decision D13 (log entries 5 and 16), and that the entry
is not cleared is its reading of a gap of its source. -/
def Obligations.ReturnPopsOrUnderflows : Prop :=
  Reads 0xFFFF 0x00EE (fun _ => .ret) ∧
  (∀ s, 0 < s.sp.toNat → (h : s.sp.toNat - 1 < 16) →
    exec .ret s = .next { s with sp := s.sp - 1, pc := s.stack[s.sp.toNat - 1]'h }) ∧
  (∀ s, s.sp = 0 →
    exec .ret s = .next { s with run := .faulted, err := { kind := .stackUnderflow, pc := s.pc, opcode := 0x00EE } })

/-- The model's choice of log entry 6: with SP above 16, where R47 says SP never is, CALL and RET stop by name. -/
def Obligations.IllegalStackPointerStops : Prop :=
  ∀ s : State, 16 < s.sp.toNat →
    exec .ret s = .fault .stackPointerIllegal ∧ ∀ nnn, exec (.call nnn) s = .fault .stackPointerIllegal

/-- CALL then RET comes back to the instruction after the CALL with the same depth, at each of the 16 levels (the
worked example S4). The pushed value stays in the popped entry. -/
def Obligations.CallThenReturnRoundTrip : Prop :=
  ∀ (nnn : Addr12) (s t u : State), s.sp.toNat < 16 → exec (.call nnn) s = .next t →
    u.stack = t.stack → u.sp = t.sp →
    ∃ r, exec .ret u = .next r ∧ r.pc = s.pc + 2 ∧ r.sp = s.sp ∧
      ∀ k : Fin 16, k.val ≠ s.sp.toNat → r.stack[k] = s.stack[k]

/-- R124 to R127: the compare-and-skip instructions write PC and nothing else. -/
def Obligations.RegisterSkipsWriteOnlyPc : Prop :=
  (Reads 0xF000 0x3000 (fun w => .seImm (fieldX w) (fieldKK w)) ∧
    ∀ x kk s, exec (.seImm x kk) s = .next { s with pc := if s.v[x] = kk then s.pc + 4 else s.pc + 2 }) ∧
  (Reads 0xF000 0x4000 (fun w => .sneImm (fieldX w) (fieldKK w)) ∧
    ∀ x kk s, exec (.sneImm x kk) s = .next { s with pc := if s.v[x] ≠ kk then s.pc + 4 else s.pc + 2 }) ∧
  (Reads 0xF00F 0x5000 (fun w => .seReg (fieldX w) (fieldY w)) ∧
    ∀ x y s, exec (.seReg x y) s = .next { s with pc := if s.v[x] = s.v[y] then s.pc + 4 else s.pc + 2 }) ∧
  (Reads 0xF00F 0x9000 (fun w => .sneReg (fieldX w) (fieldY w)) ∧
    ∀ x y s, exec (.sneReg x y) s = .next { s with pc := if s.v[x] ≠ s.v[y] then s.pc + 4 else s.pc + 2 })

/-! ## Index register and memory -/

/-- R170, R171, R172: the instructions that write I, modulo `2^I_WIDTH`; Fx1E writes VF under `FX1E_SETS_VF` only. -/
def Obligations.IndexInstructionsWriteIndex : Prop :=
  (Reads 0xF000 0xA000 (fun w => .ldI (fieldNNN w)) ∧
    ∀ nnn s, exec (.ldI nnn) s = .next { s with i := BitVec.ofNat 16 nnn.toNat, pc := s.pc + 2 }) ∧
  (Reads 0xF0FF 0xF01E (fun w => .addIVx (fieldX w)) ∧
    ∀ x s, exec (.addIVx x) s =
      .next { s with
        i := BitVec.ofNat 16 ((s.i.toNat + s.v[x].toNat) % 2 ^ indexBits s.cfg.iWidth)
        v := if s.cfg.fx1eSetsVf then s.v.set 15 (if s.i.toNat + s.v[x].toNat > 0xFFF then 1 else 0) else s.v
        pc := s.pc + 2 }) ∧
  (Reads 0xF0FF 0xF029 (fun w => .ldFVx (fieldX w)) ∧
    ∀ x s, exec (.ldFVx x) s =
      .next { s with
        i := BitVec.ofNat 16
          ((if s.cfg.fontDigitMode = .lowNibble then s.v[x].toNat % 16 else s.v[x].toNat) * 5 %
            2 ^ indexBits s.cfg.iWidth)
        pc := s.pc + 2 })

/-- R174: Fx33 stores the three decimal digits of Vx at I, I + 1 and I + 2 modulo 4096, and changes no other byte and
no other state but PC. -/
def Obligations.DecimalStoreWritesThreeDigits : Prop :=
  Reads 0xF0FF 0xF033 (fun w => .ldBVx (fieldX w)) ∧
  ∀ (x : Reg) (s : State), s.MemLegal →
    ∃ m, exec (.ldBVx x) s = .next { s with mem := m, pc := s.pc + 2 } ∧
      { s with mem := m }.readByte (s.i.toNat % 4096) = BitVec.ofNat 8 (s.v[x].toNat / 100) ∧
      { s with mem := m }.readByte ((s.i.toNat + 1) % 4096) = BitVec.ofNat 8 (s.v[x].toNat / 10 % 10) ∧
      { s with mem := m }.readByte ((s.i.toNat + 2) % 4096) = BitVec.ofNat 8 (s.v[x].toNat % 10) ∧
      ∀ a, (∀ k, k < 3 → (s.i.toNat + k) % 4096 ≠ a % 4096) → { s with mem := m }.readByte a = s.readByte a

/-- R176: Fx55 stores V0 to Vx at I and on, modulo 4096, and changes no other byte and no other state but PC. That I
stays is the spec's decision D11 (log entry 16). -/
def Obligations.BlockStoreWritesRegisters : Prop :=
  Reads 0xF0FF 0xF055 (fun w => .storeRegs (fieldX w)) ∧
  ∀ (x : Reg) (s : State), s.MemLegal →
    ∃ m, exec (.storeRegs x) s = .next { s with mem := m, pc := s.pc + 2 } ∧
      (∀ k : Reg, k ≤ x → { s with mem := m }.readByte ((s.i.toNat + k.val) % 4096) = s.v[k]) ∧
      ∀ a, (∀ k : Reg, k ≤ x → (s.i.toNat + k.val) % 4096 ≠ a % 4096) →
        { s with mem := m }.readByte a = s.readByte a

/-- R178: Fx65 loads V0 to Vx from I and on, modulo 4096, and changes nothing else but PC. That I stays is the spec's
decision D11 (log entry 16). -/
def Obligations.BlockLoadWritesRegisters : Prop :=
  Reads 0xF0FF 0xF065 (fun w => .loadRegs (fieldX w)) ∧
  ∀ (x : Reg) (s : State),
    ∃ v, exec (.loadRegs x) s = .next { s with v := v, pc := s.pc + 2 } ∧
      ∀ k : Reg, v[k] = if k ≤ x then s.readByte ((s.i.toNat + k.val) % 4096) else s.v[k]

/-- Fx55 then Fx65 with the same x gives back the registers it stored, whatever happened to them in between, as long as I
and MEM are as the store left them. The load starts where the store started because Fx55 leaves I unchanged, the spec's
decision D11 (log entry 16). -/
def Obligations.BlockStoreThenLoadRoundTrip : Prop :=
  ∀ (x : Reg) (s t u : State), s.MemLegal → exec (.storeRegs x) s = .next t →
    u.mem = t.mem → u.cfg = t.cfg → u.i = t.i →
    ∃ r, exec (.loadRegs x) u = .next r ∧ ∀ k : Reg, k ≤ x → r.v[k] = s.v[k]

/-- R62, R72: an access takes its address modulo 4096; a byte written is the byte read, and every other byte is left.
-/
def Obligations.MemoryReadsLastWrite : Prop :=
  ∀ (s : State) (a : Nat) (b : Byte), s.MemLegal →
    s.readByte a = s.readByte (a % 4096) ∧
    (s.writeByte a b).readByte a = b ∧
    (∀ c, c % 4096 ≠ a % 4096 → (s.writeByte a b).readByte c = s.readByte c) ∧
    (s.writeByte a b).MemLegal

/-- Two memories in canonical form that read alike at each of the 4,096 addresses are the same list. -/
def Obligations.CanonicalMemoriesAreEqual : Prop :=
  ∀ (bg : Nat → Byte) (m n : Memory), Memory.wf bg m → Memory.wf bg n →
    (∀ a, a < 4096 → Memory.read bg m a = Memory.read bg n a) → m = n

/-- R74: the bytes that Fx55 stores at the next PC are the word that the next STEP fetches. -/
def Obligations.StoredWordIsFetchedNext : Prop :=
  ∀ (x : Reg) (s t : State), s.MemLegal → 1 ≤ x.val → (s.pc.toNat + 2) % 4096 = s.i.toNat % 4096 →
    exec (.storeRegs x) s = .next t → t.fetchWord = s.v[0] ++ s.v[1]

/-! ## Display -/

/-- R190: CLS turns every pixel off and changes nothing else but PC; VF is not written. -/
def Obligations.ClearTurnsEveryPixelOff : Prop :=
  Reads 0xFFFF 0x00E0 (fun _ => .cls) ∧
  ∀ s, ∃ f, exec .cls s = .next { s with fb := f, pc := s.pc + 2 } ∧ ∀ px py, Frame.pixel f px py = false

/-- R192, R193, R194: Dxyn flips exactly the pixels under a set bit of the sprite, sets VF to 1 exactly when one of
them was on, and changes nothing else but PC; with n = 0 it flips none and writes VF = 0. The bit order and Dxy0 are
the spec's decision D12 (log entry 16). -/
def Obligations.DrawFlipsCoveredPixels : Prop :=
  Reads 0xF000 0xD000 (fun w => .drw (fieldX w) (fieldY w) (fieldN w)) ∧
  ∀ (x y : Reg) (n : Nat) (s : State), n < 16 →
    ∃ f flag, exec (.drw x y n) s = .next { s with fb := f, v := s.v.set 15 flag, pc := s.pc + 2 } ∧
      (∀ px py, Frame.pixel f px py = true ↔
        Xor (Frame.pixel s.fb px py = true) (SpriteCovers s x y n px py)) ∧
      (flag = 1 ∨ flag = 0) ∧
      (flag = 1 ↔ ∃ px py, Frame.pixel s.fb px py = true ∧ SpriteCovers s x y n px py)

/-- Drawing the same sprite twice at the same coordinates gives back the framebuffer; when the first draw hit nothing
and the sprite has a set bit, the second reports VF = 1 (S5, conflict C7). -/
def Obligations.DrawTwiceRestoresFrame : Prop :=
  ∀ (x y : Reg) (n : Nat) (s t : State), n < 16 → x ≠ vf → y ≠ vf → exec (.drw x y n) s = .next t →
    ∃ u, exec (.drw x y n) t = .next u ∧ u.fb = s.fb ∧
      (t.v[15] = 0 → (∃ px py, SpriteCovers s x y n px py) → u.v[15] = 1)

/-- R173, R272: after reset the sprite of digit d is the five bytes of `FONT_ROM` at 5d, whatever `FONT_ROM` holds,
and Fx29 points I at it. -/
def Obligations.FontSpriteIsAtDigitTimesFive : Prop :=
  (∀ (cfg : Config) (d : Fin 16) (k : Fin 5),
    { State.reset with cfg := cfg }.readByte (5 * d.val + k.val) = cfg.fontRom[5 * d.val + k.val]) ∧
  ∀ (d : Fin 16) (x : Reg) (s : State), s.v[x].toNat = d.val →
    exec (.ldFVx x) s = .next { s with i := BitVec.ofNat 16 (5 * d.val), pc := s.pc + 2 }

/-! ## Keypad and timers -/

/-- R210, R211, R213: the key skips read the level of the key that Vx names and write PC only; in the mode `full` a
value above 15 names no key and counts as not pressed. -/
def Obligations.KeySkipsReadTheLevel : Prop :=
  Reads 0xF0FF 0xE09E (fun w => .skp (fieldX w)) ∧ Reads 0xF0FF 0xE0A1 (fun w => .sknp (fieldX w)) ∧
  ∀ (x : Reg) (s : State),
    (s.cfg.keyIndexMode = .lowNibble →
      exec (.skp x) s =
        .next { s with pc := if s.keys.getLsbD (s.v[x].toNat % 16) = true then s.pc + 4 else s.pc + 2 } ∧
      exec (.sknp x) s =
        .next { s with pc := if s.keys.getLsbD (s.v[x].toNat % 16) = false then s.pc + 4 else s.pc + 2 }) ∧
    (s.cfg.keyIndexMode = .full → s.v[x].toNat ≤ 15 →
      exec (.skp x) s =
        .next { s with pc := if s.keys.getLsbD s.v[x].toNat = true then s.pc + 4 else s.pc + 2 } ∧
      exec (.sknp x) s =
        .next { s with pc := if s.keys.getLsbD s.v[x].toNat = false then s.pc + 4 else s.pc + 2 }) ∧
    (s.cfg.keyIndexMode = .full → 15 < s.v[x].toNat →
      exec (.skp x) s = .next { s with pc := s.pc + 2 } ∧ exec (.sknp x) s = .next { s with pc := s.pc + 4 })

/-- R214: the first attempt of Fx0A latches the keys and waits at its own PC; the step returns Waiting. The edge
detection is the spec's decision D10 (log entry 16). -/
def Obligations.KeyWaitSuspends : Prop :=
  Reads 0xF0FF 0xF00A (fun w => .ldVxK (fieldX w)) ∧
  ∀ x s, exec (.ldVxK x) s = .next { s with base := s.keys, run := .waiting x } ∧
    (s.run = .running → stepReply s { s with base := s.keys, run := .waiting x } = .waiting)

/-- R215: a STEP in WAITING(r), whatever MEM holds at PC. With no press edge since the last attempt it latches the
keys and returns Waiting; with one it completes with the lowest-numbered key and returns Executed. The edge detection
is the spec's decision D10 (log entry 16). -/
def Obligations.KeyWaitRetries : Prop :=
  ∀ (s s0 : State) (rand : Option Byte) (r : Reg), NextIsStep s rand s0 → s.run = .waiting r →
    ((∀ k : Fin 16, ¬(s.keys.getLsbD k = true ∧ s.base.getLsbD k = false)) →
      step s = .next { s0 with base := s.keys } ∧ stepReply s { s0 with base := s.keys } = .waiting) ∧
    (∀ k : Fin 16, s.keys.getLsbD k = true → s.base.getLsbD k = false →
      (∀ j : Fin 16, j < k → ¬(s.keys.getLsbD j = true ∧ s.base.getLsbD j = false)) →
      ∃ t, step s = .next t ∧ stepReply s t = .executed ∧
        t = { s0 with v := s.v.set r (BitVec.ofNat 8 k.val), base := s.keys, run := .running, pc := s.pc + 2 })

/-- R212, R216, R217: Fx07, Fx15 and Fx18 move a byte between Vx and a timer and change nothing else but PC. -/
def Obligations.TimerMovesWriteTheirDestination : Prop :=
  (Reads 0xF0FF 0xF007 (fun w => .ldVxDt (fieldX w)) ∧
    ∀ x s, exec (.ldVxDt x) s = .next { s with v := s.v.set x s.dt, pc := s.pc + 2 }) ∧
  (Reads 0xF0FF 0xF015 (fun w => .ldDtVx (fieldX w)) ∧
    ∀ x s, exec (.ldDtVx x) s = .next { s with dt := s.v[x], pc := s.pc + 2 }) ∧
  (Reads 0xF0FF 0xF018 (fun w => .ldStVx (fieldX w)) ∧
    ∀ x s, exec (.ldStVx x) s = .next { s with st := s.v[x], pc := s.pc + 2 })

/-! ## Frames over all instructions -/

/-- An instruction writes no general register but those of R32's table; VF is written as a flag by the flag-writing
ALU instructions, by Dxyn and, under `FX1E_SETS_VF`, by Fx1E, and by no other (R31). -/
def Obligations.OnlyListedRegistersChange : Prop :=
  ∀ (i : Instr) (s t : State) (r : Reg), exec i s = .next t → mayWrite s.cfg i r = false → t.v[r] = s.v[r]

/-- R35: how each instruction leaves PC. -/
def Obligations.PcAfterEachInstruction : Prop :=
  ∀ (i : Instr) (s t : State), exec i s = .next t →
    (plainAdvance i = true → t.pc = s.pc + 2) ∧
    (isSkip i = true → t.pc = s.pc + 2 ∨ t.pc = s.pc + 4) ∧
    (∀ x, i = .ldVxK x → t.pc = s.pc) ∧
    (s.run ≠ .faulted → t.run = .faulted → t.pc = s.pc)

/-- Each special register is written by the instructions its rule names and by no other: I by Annn, Fx1E and Fx29; SP
by 2nnn and 00EE; STACK by 2nnn; DT by Fx15; ST by Fx18; FB by 00E0 and Dxyn; BASE by Fx0A; RUN by Fx0A and by an
error of 2nnn or 00EE, which alone write ERR; KEYS by none (R33, R36 to R41, R43, R44). -/
def Obligations.SpecialRegistersHaveNamedWriters : Prop :=
  ∀ (i : Instr) (s t : State), exec i s = .next t →
    ((∀ nnn, i ≠ .ldI nnn) → (∀ x, i ≠ .addIVx x) → (∀ x, i ≠ .ldFVx x) → t.i = s.i) ∧
    ((∀ nnn, i ≠ .call nnn) → i ≠ .ret → t.sp = s.sp ∧ t.err = s.err) ∧
    ((∀ nnn, i ≠ .call nnn) → t.stack = s.stack) ∧
    ((∀ x, i ≠ .ldDtVx x) → t.dt = s.dt) ∧
    ((∀ x, i ≠ .ldStVx x) → t.st = s.st) ∧
    (i ≠ .cls → (∀ x y n, i ≠ .drw x y n) → t.fb = s.fb) ∧
    ((∀ x, i ≠ .ldVxK x) → t.base = s.base) ∧
    ((∀ x, i ≠ .ldVxK x) → (∀ nnn, i ≠ .call nnn) → i ≠ .ret → t.run = s.run) ∧
    t.keys = s.keys ∧ t.cfg = s.cfg ∧ t.schedule = s.schedule

/-- No instruction but Fx33 and Fx55 writes MEM: every byte reads as before (R64). -/
def Obligations.OnlyStoresChangeMemory : Prop :=
  ∀ (i : Instr) (s t : State), (∀ x, i ≠ .ldBVx x) → (∀ x, i ≠ .storeRegs x) → exec i s = .next t →
    ∀ a, t.readByte a = s.readByte a

/-! ## The step -/

/-- A STEP in RUNNING runs the instruction that the two bytes at PC decode to, high byte first, with the draw of that
STEP and the schedule moved on (R100, R102, R103). -/
def Obligations.StepRunsDecodedInstruction : Prop :=
  ∀ (s s0 : State) (rand : Option Byte) (i : Instr), NextIsStep s rand s0 → s.run = .running →
    decode (s.readByte s.pc.toNat ++ s.readByte (s.pc.toNat + 1)) = .ok i →
    step s = exec i { s0 with rand := rand }

/-- R107: a STEP in FAULTED changes nothing of the CORE and returns Halted, the spec's decision D14 (log entry 16). -/
def Obligations.FaultedStepHalts : Prop :=
  ∀ (s s0 : State) (rand : Option Byte), NextIsStep s rand s0 → s.run = .faulted →
    step s = .next s0 ∧ stepReply s s0 = .halted

/-- R236: a word that matches no row of the table is reported before any execution, with the PC and the word, and no
other state changes. The sticky error is the spec's decision D13 (log entry 16). -/
def Obligations.UnknownWordIsReported : Prop :=
  ∀ (s s0 : State) (rand : Option Byte) (w : Word), NextIsStep s rand s0 → s.run = .running →
    w = s.readByte s.pc.toNat ++ s.readByte (s.pc.toNat + 1) → (∀ r ∈ opcodeTable, w &&& r.mask ≠ r.value) →
    step s = .next { s0 with
      rand := rand, run := .faulted, err := { kind := .unknownOpcode, pc := s.pc, opcode := w } }

/-- A STEP that reports an error changes nothing but RUN and ERR; ERR names the PC and the fetched word, and the kind
is one of the three that a step raises (R232, R234, R242; decision D13 of the spec, log entries 5 and 16). -/
def Obligations.ErrorsAreWholeAndPrecise : Prop :=
  ∀ (s s0 t : State) (rand : Option Byte), NextIsStep s rand s0 → s.run ≠ .faulted → step s = .next t →
    t.run = .faulted →
    ∃ kind, t = { s0 with
        rand := rand, run := .faulted, err := { kind := kind, pc := s.pc, opcode := s.fetchWord } } ∧
      (kind = .stackOverflow ∨ kind = .stackUnderflow ∨ kind = .unknownOpcode) ∧
      stepReply s t = .error kind

/-- In RUNNING a STEP reports an error exactly when the fetched word is unknown, or is 2nnn at SP = 16, or is 00EE at
SP = 0 (R230, R242, R292). -/
def Obligations.ErrorCausesAreTheThree : Prop :=
  ∀ (s s0 : State) (rand : Option Byte), NextIsStep s rand s0 → s.run = .running →
    ((∃ t, step s = .next t ∧ t.run = .faulted) ↔
      ((∀ r ∈ opcodeTable, s.fetchWord &&& r.mask ≠ r.value) ∨
        (s.fetchWord &&& 0xF000 = 0x2000 ∧ s.sp = 16) ∨ (s.fetchWord = 0x00EE ∧ s.sp = 0)))

/-- A STEP moves neither timer, except by an executed Fx15 or Fx18, and never changes KEYS (R108). -/
def Obligations.StepLeavesTimersAndKeys : Prop :=
  ∀ (s s0 t : State) (rand : Option Byte), NextIsStep s rand s0 → step s = .next t →
    t.keys = s.keys ∧
    (t.dt ≠ s.dt → ∃ x, s.run = .running ∧ decode s.fetchWord = .ok (.ldDtVx x) ∧ t.dt = s.v[x]) ∧
    (t.st ≠ s.st → ∃ x, s.run = .running ∧ decode s.fetchWord = .ok (.ldStVx x) ∧ t.st = s.v[x])

/-- At a self-jump every further STEP changes nothing and returns Executed (R111; the end of a run is the spec's
decision D31, log entry 16). -/
def Obligations.SelfJumpRepeats : Prop :=
  ∀ (s s0 : State) (rand : Option Byte), NextIsStep s rand s0 → s.run = .running → s.AtSelfJump →
    step s = .next { s0 with rand := rand } ∧ stepReply s { s0 with rand := rand } = .executed ∧
      State.Ended { s0 with rand := rand }

/-! ## Reset, invariant, run states -/

/-- The values after RESET (R48, R270, R271): every register, and MEM as the font followed by zeros. PC, KEYS, RUN,
BASE and ERR are the spec's decision D16 (log entry 14). -/
def Obligations.ResetLeavesTheListedValues : Prop :=
  (∀ k : Reg, State.reset.v[k] = 0) ∧ State.reset.i = 0 ∧ State.reset.pc = 0x0200 ∧ State.reset.sp = 0 ∧
  (∀ k : Fin 16, State.reset.stack[k] = 0) ∧ State.reset.dt = 0 ∧ State.reset.st = 0 ∧
  (∀ px py, Frame.pixel State.reset.fb px py = false) ∧ State.reset.keys = 0 ∧ State.reset.run = .running ∧
  State.reset.base = 0 ∧ State.reset.err = { kind := .none, pc := 0, opcode := 0 } ∧
  (∀ a, (h : a < 80) → State.reset.readByte a = State.reset.cfg.fontRom[a]) ∧
  (∀ a, 80 ≤ a → a < 4096 → State.reset.readByte a = 0)

/-- The RESET transaction, from any state, leaves what `State.reset` holds; the parameters of the instance, the
transactions to come and the count of free draws are no state of the CORE and stay (log entry 15). -/
def Obligations.ResetTransactionFromAnyState : Prop :=
  ∀ (s : State) (rest : List Transaction), s.schedule = .reset :: rest →
    step s = .next { State.reset with cfg := s.cfg, schedule := rest, draws := s.draws }

/-- The state after reset is legal, for every choice of the parameters. -/
def Obligations.ResetStateIsLegal : Prop :=
  ∀ cfg : Config, State.Inv { State.reset with cfg := cfg }

/-- Every transaction keeps the state legal: memory canonical, SP in 0 to 16, I within `I_WIDTH`, and RUN = FAULTED
exactly when ERR records an error, which is never MemoryOutOfRange. -/
def Obligations.StepKeepsLegalState : Prop :=
  ∀ s t : State, s.Inv → step s = .next t → t.Inv

/-- From a legal state every number of steps of the model answers a next state, which is legal: no instruction, word,
address or schedule leads to a fault or a refusal. It rests on two choices of the model: an error of the spec is a next
state with RUN = FAULTED, after which a STEP changes nothing (log entry 5), and a STEP is issued when the schedule is used
up (log entry 1). The CORE itself stops executing by entering FAULTED (R111), and the statement does not deny it. -/
def Obligations.LegalStepAlwaysCompletes : Prop :=
  ∀ (k : Nat) (s : State), s.Inv → ∃ t, Host.Core.run core k s = .next t ∧ t.Inv

/-- While FAULTED, no transaction but RESET ends the fault, no general register, memory byte, pixel, PC, I, SP or
stack entry changes except by a LOAD of bytes, and the timers move by TICK only (R235, R252). The sticky error is the
spec's decision D13, D14 and D15 (log entry 16), and that LOAD acts here is log entry 8. -/
def Obligations.FaultedUntilReset : Prop :=
  ∀ s t : State, s.run = .faulted → s.schedule.head? ≠ some .reset → step s = .next t →
    t.run = .faulted ∧ t.v = s.v ∧ t.i = s.i ∧ t.pc = s.pc ∧ t.sp = s.sp ∧ t.stack = s.stack ∧ t.fb = s.fb ∧
    t.base = s.base ∧
    ((∀ start bytes, s.schedule.head? ≠ some (.load start bytes)) → t.mem = s.mem ∧ t.err = s.err) ∧
    (s.schedule.head? ≠ some .tick → t.dt = s.dt ∧ t.st = s.st)

/-- WAITING is left only by a press edge seen at a STEP, by RESET, or by a LOAD that fails (R263, R281). The edge is
the spec's decision D10 and the LOAD is log entry 8. -/
def Obligations.WaitingEndsOnlyByEdgeOrReset : Prop :=
  ∀ (s t : State) (r : Reg), s.run = .waiting r → step s = .next t → t.run ≠ .waiting r →
    (∃ rand s0, NextIsStep s rand s0 ∧ t.run = .running ∧
      ∃ k : Fin 16, s.keys.getLsbD k = true ∧ s.base.getLsbD k = false ∧ t.v[r] = BitVec.ofNat 8 k.val) ∨
    s.schedule.head? = some .reset ∨
    (∃ start bytes, s.schedule.head? = some (.load start bytes) ∧ start + bytes.length > 4096 ∧ t.run = .faulted)

/-- No transaction changes the parameters of the instance, and each uses up one entry of the schedule (R46). -/
def Obligations.ParametersAreFixed : Prop :=
  ∀ s t : State, step s = .next t → t.cfg = s.cfg ∧ t.schedule = s.schedule.tail

/-! ## The host's transactions and the outputs -/

/-- R250, R252: TICK decrements each timer that is above zero, in every run state, and writes nothing else. That it
acts in WAITING and FAULTED is the spec's decision D15 (log entry 16). -/
def Obligations.TickDecrementsTimers : Prop :=
  ∀ (s : State) (rest : List Transaction), s.schedule = .tick :: rest →
    step s = .next { s with
      schedule := rest
      dt := BitVec.ofNat 8 (s.dt.toNat - 1)
      st := BitVec.ofNat 8 (s.st.toNat - 1) }

/-- R256: KEY_WRITE writes the whole keypad and nothing else, the spec's decision D28 (log entry 16). -/
def Obligations.KeyWriteWritesOnlyKeys : Prop :=
  ∀ (s : State) (keys : BitVec 16) (rest : List Transaction), s.schedule = .keyWrite keys :: rest →
    step s = .next { s with schedule := rest, keys := keys }

/-- R280, R281: a LOAD that fits writes its bytes without wrapping and nothing else; one that does not is rejected
whole, with the record of LoadOverflow. The rejection is the spec's decision D19 (log entry 16), and that LOAD acts in
every run state is log entry 8. -/
def Obligations.LoadWritesOrIsRejected : Prop :=
  ∀ (s : State) (start : Nat) (bytes : List Byte) (rest : List Transaction), s.MemLegal →
    s.schedule = .load start bytes :: rest →
    (start + bytes.length ≤ 4096 →
      ∃ m, step s = .next { s with schedule := rest, mem := m } ∧
        (∀ j, (h : j < bytes.length) → { s with mem := m }.readByte (start + j) = bytes[j]) ∧
        ∀ a, a < 4096 → (a < start ∨ start + bytes.length ≤ a) → { s with mem := m }.readByte a = s.readByte a) ∧
    (4096 < start + bytes.length →
      step s = .next { s with
        schedule := rest, run := .faulted
        err := { kind := .loadOverflow, pc := BitVec.ofNat 16 start, opcode := 0 } })

/-- R258, R260: FB_READ and DEBUG_READ change nothing; they return the framebuffer, and the registers with all 4,096
bytes of MEM. The last five registers of DEBUG_READ are the spec's decision D29 (log entries 16 and 18). -/
def Obligations.ReadsChangeNothing : Prop :=
  ∀ (s : State) (t : Transaction) (rest : List Transaction), s.schedule = t :: rest →
    t = .fbRead ∨ t = .debugRead → step s = .next { s with schedule := rest } ∧
    replyTo .fbRead s s = .pixels s.fb ∧
    ∃ bytes, replyTo .debugRead s s = .snapshot {
        mem := bytes, v := s.v, pc := s.pc, sp := s.sp, i := s.i, dt := s.dt, st := s.st, stack := s.stack,
        keys := s.keys, run := s.run, base := s.base, err := s.err } ∧
      bytes.length = 4096 ∧ ∀ a, a < 4096 → bytes[a]? = some (s.readByte a)

/-- R254: the tone is on exactly when ST is not zero, the spec's decision D26 (log entry 16). -/
def Obligations.ToneFollowsSoundTimer : Prop :=
  ∀ s : State, s.tone = true ↔ s.st.toNat ≠ 0
end

