-- ==== Sys2Proof/Laws/Decode.lean ====
section
/-! SUPPORT. Instruction words as numbers: what each field of a word is, the number of each encoding format, and what a
word under each mask of the opcode table is. Facts about decoding and encoding follow by linear arithmetic. -/

namespace Sys2Proof

/-! ### Fields of a word -/

theorem fieldC_eq (w : Word) : fieldC w = w.toNat / 4096 := by
  have := w.isLt
  simp only [fieldC, BitVec.extractLsb'_toNat, Nat.shiftRight_eq_div_pow]
  omega

theorem fieldX_val (w : Word) : (fieldX w).val = w.toNat / 256 % 16 := by
  show (w.extractLsb' 8 4).toNat = _
  simp only [BitVec.extractLsb'_toNat, Nat.shiftRight_eq_div_pow]

theorem fieldY_val (w : Word) : (fieldY w).val = w.toNat / 16 % 16 := by
  show (w.extractLsb' 4 4).toNat = _
  simp only [BitVec.extractLsb'_toNat, Nat.shiftRight_eq_div_pow]

theorem fieldN_eq (w : Word) : fieldN w = w.toNat % 16 := by
  simp [fieldN, BitVec.extractLsb'_toNat]

theorem fieldKK_toNat (w : Word) : (fieldKK w).toNat = w.toNat % 256 := by
  simp [fieldKK, BitVec.extractLsb'_toNat]

theorem fieldNNN_toNat (w : Word) : (fieldNNN w).toNat = w.toNat % 4096 := by
  simp [fieldNNN, BitVec.extractLsb'_toNat]

/-! ### Encodings -/

/-- Appending is placing the first part above the second. -/
theorem toNat_append_eq {m n : Nat} (a : BitVec m) (b : BitVec n) :
    (a ++ b).toNat = a.toNat * 2 ^ n + b.toNat := by
  rw [BitVec.toNat_append, Nat.shiftLeft_eq, Nat.mul_comm, Nat.two_pow_add_eq_or_of_lt b.isLt]

@[simp] theorem regField_toNat (x : Reg) : (regField x).toNat = x.val := rfl

theorem encodeA_toNat (c : BitVec 4) (nnn : Addr12) : (encodeA c nnn).toNat = c.toNat * 4096 + nnn.toNat :=
  toNat_append_eq c nnn

theorem encodeK_toNat (c : BitVec 4) (x : Reg) (kk : Byte) :
    (encodeK c x kk).toNat = c.toNat * 4096 + x.val * 256 + kk.toNat := by
  simp only [encodeK, toNat_append_eq, regField_toNat]
  omega

theorem encodeR_toNat (c : BitVec 4) (x y : Reg) (n : BitVec 4) :
    (encodeR c x y n).toNat = c.toNat * 4096 + x.val * 256 + y.val * 16 + n.toNat := by
  simp only [encodeR, toNat_append_eq, regField_toNat]
  omega

/-! ### Words under a mask -/

theorem and_F000 (w : Word) : (w &&& 0xF000).toNat = w.toNat / 4096 * 4096 := by
  have h : w &&& (0xF000 : Word) = (w >>> 12) <<< 12 := by
    ext i hi
    simp
    interval_cases i <;> simp
  have := w.isLt
  rw [h]
  simp [BitVec.toNat_shiftLeft, BitVec.toNat_ushiftRight, Nat.shiftRight_eq_div_pow, Nat.shiftLeft_eq]
  omega

theorem and_000F (w : Word) : (w &&& 0x000F).toNat = w.toNat % 16 := by
  simpa using Nat.and_two_pow_sub_one_eq_mod w.toNat 4

theorem and_00FF (w : Word) : (w &&& 0x00FF).toNat = w.toNat % 256 := by
  simpa using Nat.and_two_pow_sub_one_eq_mod w.toNat 8

/-- Two masks without a common bit select the sum of what each selects. -/
theorem and_or_mask (w a b : Word) (h : a &&& b = 0) : (w &&& (a ||| b)) = (w &&& a) + (w &&& b) := by
  have e : (w &&& a) &&& (w &&& b) = 0#16 := by
    rw [show (w &&& a) &&& (w &&& b) = w &&& w &&& (a &&& b) by ac_rfl, h]
    simp
  rw [BitVec.add_eq_or_of_and_eq_zero _ _ e, ← BitVec.and_or_distrib_left]

theorem and_F00F (w : Word) : (w &&& 0xF00F).toNat = w.toNat / 4096 * 4096 + w.toNat % 16 := by
  have := w.isLt
  rw [show (0xF00F : Word) = 0xF000 ||| 0x000F by decide, and_or_mask _ _ _ (by decide), BitVec.toNat_add, and_F000,
    and_000F]
  omega

theorem and_F0FF (w : Word) : (w &&& 0xF0FF).toNat = w.toNat / 4096 * 4096 + w.toNat % 256 := by
  have := w.isLt
  rw [show (0xF0FF : Word) = 0xF000 ||| 0x00FF by decide, and_or_mask _ _ _ (by decide), BitVec.toNat_add, and_F000,
    and_00FF]
  omega

theorem and_FFFF (w : Word) : w &&& 0xFFFF = w := by
  rw [show (0xFFFF : Word) = BitVec.allOnes 16 by decide, BitVec.and_allOnes]

/-- A word that matches a row with mask 0xF000 has the row's category. -/
theorem fieldC_of_and_F000 {w : Word} {v : Nat} (hv : v < 65536) (h : w &&& 0xF000 = BitVec.ofNat 16 v) :
    fieldC w = v / 4096 := by
  have h' := congrArg BitVec.toNat h
  rw [and_F000, BitVec.toNat_ofNat, Nat.mod_eq_of_lt hv] at h'
  rw [fieldC_eq]
  omega

/-- A word that matches a row with mask 0xF00F has the row's category and function code. -/
theorem fields_of_and_F00F {w : Word} {v : Nat} (hv : v < 65536) (h : w &&& 0xF00F = BitVec.ofNat 16 v) :
    fieldC w = v / 4096 ∧ fieldN w = v % 16 := by
  have h' := congrArg BitVec.toNat h
  rw [and_F00F, BitVec.toNat_ofNat, Nat.mod_eq_of_lt hv] at h'
  rw [fieldC_eq, fieldN_eq]
  omega

/-- A word that matches a row with mask 0xF0FF has the row's category and function byte. -/
theorem fields_of_and_F0FF {w : Word} {v : Nat} (hv : v < 65536) (h : w &&& 0xF0FF = BitVec.ofNat 16 v) :
    fieldC w = v / 4096 ∧ (fieldKK w).toNat = v % 256 := by
  have h' := congrArg BitVec.toNat h
  rw [and_F0FF, BitVec.toNat_ofNat, Nat.mod_eq_of_lt hv] at h'
  rw [fieldC_eq, fieldKK_toNat]
  omega

end Sys2Proof
end

