-- ==== Sys2Proof/Laws/Display.lean ====
section
/-! SUPPORT. The framebuffer pixel by pixel: drawing a sprite is one flip for each of its set bits, these name distinct
pixels (44_display.md R195), and so each pixel under a set bit flips once and the rest stay. -/

namespace Sys2Proof.Machine

/-- A pixel after a flip: its negation at the flipped place, what it was elsewhere. -/
theorem pixel_toggle (f : Frame) (px qx : Fin 64) (py qy : Fin 32) :
    (f.toggle px py).pixel qx qy = (f.pixel qx qy ^^ decide (px = qx ∧ py = qy)) := by
  unfold Frame.pixel Frame.toggle
  by_cases h : py = qy
  · subst h
    simp [Fin.ext_iff, eq_comm]
  · have h' : py.val ≠ qy.val := fun e => h (Fin.ext e)
    simp [h, h']

@[simp] theorem pixel_clear (px : Fin 64) (py : Fin 32) : Frame.clear.pixel px py = false := by
  simp [Frame.pixel, Frame.clear]

/-! ### A sprite as the list of its pixels -/

/-- The pixels under the set bits of one sprite row, left to right. -/
def rowPoints (vx : Byte) (py : Fin 32) (row : Byte) : List (Fin 64 × Fin 32) :=
  ((List.range 8).filter fun c => row.getLsbD (7 - c)).map fun c => (Fin.ofNat 64 (vx.toNat + c), py)

/-- The pixels under the set bits of the sprite rows from row `r` on. -/
def spritePoints (vx vy : Byte) : Nat → List Byte → List (Fin 64 × Fin 32)
  | _, [] => []
  | r, row :: rows => rowPoints vx (Fin.ofNat 32 (vy.toNat + r)) row ++ spritePoints vx vy (r + 1) rows

/-- Draw a list of pixels in order. -/
def drawPoints (ps : List (Fin 64 × Fin 32)) (d : DrawState) : DrawState :=
  ps.foldl (fun d p => drawPixel d p.1 p.2) d

theorem drawRow_eq (vx : Byte) (py : Fin 32) (row : Byte) (d : DrawState) :
    drawRow vx py row d = drawPoints (rowPoints vx py row) d := by
  simp only [drawRow, drawPoints, rowPoints, List.foldl_map, List.foldl_filter]

/-- Drawing the rows is drawing the sprite's pixels. -/
theorem drawRows_eq (vx vy : Byte) (r : Nat) (rows : List Byte) (d : DrawState) :
    drawRows vx vy r rows d = drawPoints (spritePoints vx vy r rows) d := by
  induction rows generalizing r d with
  | nil => rfl
  | cons row rows ih => simp only [drawRows, spritePoints, ih, drawRow_eq, drawPoints, List.foldl_append]

theorem mem_rowPoints {vx : Byte} {py : Fin 32} {row : Byte} {p : Fin 64 × Fin 32} :
    p ∈ rowPoints vx py row ↔
      ∃ c, c < 8 ∧ row.getLsbD (7 - c) = true ∧ p.1.val = (vx.toNat + c) % 64 ∧ p.2 = py := by
  simp only [rowPoints, List.mem_map, List.mem_filter, List.mem_range, Prod.ext_iff, Fin.ext_iff, Fin.val_ofNat]
  constructor
  · rintro ⟨c, ⟨hc, hb⟩, h1, h2⟩; exact ⟨c, hc, hb, h1.symm, h2.symm⟩
  · rintro ⟨c, hc, hb, h1, h2⟩; exact ⟨c, ⟨hc, hb⟩, h1.symm, h2.symm⟩

/-- A pixel of the sprite: bit `7 - c` of row `k` is set, and the pixel lies `c` right and `r + k` below the start. -/
theorem mem_spritePoints {vx vy : Byte} {r : Nat} {rows : List Byte} {p : Fin 64 × Fin 32} :
    p ∈ spritePoints vx vy r rows ↔
      ∃ k c, ∃ hk : k < rows.length, c < 8 ∧ rows[k].getLsbD (7 - c) = true ∧
        p.1.val = (vx.toNat + c) % 64 ∧ p.2.val = (vy.toNat + (r + k)) % 32 := by
  induction rows generalizing r with
  | nil => simp [spritePoints]
  | cons row rows ih =>
    simp only [spritePoints, List.mem_append, mem_rowPoints, ih]
    constructor
    · rintro (⟨c, hc, hb, h1, h2⟩ | ⟨k, c, hk, hc, hb, h1, h2⟩)
      · exact ⟨0, c, by simp, hc, hb, h1, by simp [h2]⟩
      · exact ⟨k + 1, c, by simpa using hk, hc, by simpa using hb, h1, by rw [h2]; congr 2; omega⟩
    · rintro ⟨k, c, hk, hc, hb, h1, h2⟩
      cases k with
      | zero => exact .inl ⟨c, hc, by simpa using hb, h1, Fin.ext (by simpa using h2)⟩
      | succ k =>
        exact .inr ⟨k, c, by simpa using hk, hc, by simpa using hb, h1, by rw [h2]; congr 2; omega⟩

theorem rowPoints_nodup (vx : Byte) (py : Fin 32) (row : Byte) : (rowPoints vx py row).Nodup := by
  refine List.Nodup.map_on ?_ (List.nodup_range.filter _)
  intro a ha b hb h
  simp only [List.mem_filter, List.mem_range, Prod.ext_iff, Fin.ext_iff, Fin.val_ofNat] at *
  omega

/-- R195: the pixels of a sprite of at most 32 rows are distinct. -/
theorem spritePoints_nodup (vx vy : Byte) (r : Nat) (rows : List Byte) (h : rows.length ≤ 32) :
    (spritePoints vx vy r rows).Nodup := by
  induction rows generalizing r with
  | nil => simp [spritePoints]
  | cons row rows ih =>
    simp only [List.length_cons] at h
    refine List.nodup_append'.2 ⟨rowPoints_nodup _ _ _, ih _ (by omega), ?_⟩
    intro p hp hq
    obtain ⟨-, -, -, -, h1⟩ := mem_rowPoints.1 hp
    obtain ⟨k, -, hk, -, -, -, h2⟩ := mem_spritePoints.1 hq
    rw [h1] at h2
    simp only [Fin.val_ofNat] at h2
    omega

/-- Drawing distinct pixels flips exactly these. -/
theorem pixel_drawPoints {ps : List (Fin 64 × Fin 32)} (h : ps.Nodup) (d : DrawState) (qx : Fin 64) (qy : Fin 32) :
    (drawPoints ps d).1.pixel qx qy = (d.1.pixel qx qy ^^ decide ((qx, qy) ∈ ps)) := by
  induction ps generalizing d with
  | nil => simp [drawPoints]
  | cons p ps ih =>
    obtain ⟨hp, hps⟩ := List.nodup_cons.1 h
    rw [show drawPoints (p :: ps) d = drawPoints ps (drawPixel d p.1 p.2) from rfl, ih hps, drawPixel, pixel_toggle]
    by_cases e : (qx, qy) = p
    · subst e; simp [hp]
    · have e' : ¬(p.1 = qx ∧ p.2 = qy) := fun ⟨h1, h2⟩ => e (by ext <;> simp [h1, h2])
      simp [e, e']

/-- Drawing distinct pixels hits when one of them was on. -/
theorem hit_drawPoints {ps : List (Fin 64 × Fin 32)} (h : ps.Nodup) (d : DrawState) :
    (drawPoints ps d).2 = (d.2 || decide (∃ p ∈ ps, d.1.pixel p.1 p.2 = true)) := by
  induction ps generalizing d with
  | nil => simp [drawPoints]
  | cons p ps ih =>
    obtain ⟨hp, hps⟩ := List.nodup_cons.1 h
    rw [show drawPoints (p :: ps) d = drawPoints ps (drawPixel d p.1 p.2) from rfl, ih hps]
    have e : (∃ q ∈ ps, (drawPixel d p.1 p.2).1.pixel q.1 q.2 = true) ↔ ∃ q ∈ ps, d.1.pixel q.1 q.2 = true := by
      refine exists_congr fun q => and_congr_right fun hq => ?_
      have : ¬(p.1 = q.1 ∧ p.2 = q.2) := fun ⟨h1, h2⟩ => hp (by rwa [show p = q from Prod.ext h1 h2])
      simp [drawPixel, pixel_toggle, this]
    simp only [e]
    simp only [drawPixel, List.exists_mem_cons_iff, Bool.or_assoc, Bool.decide_or, Bool.decide_eq_true]

end Sys2Proof.Machine
end

