-- ==== Sys2Proof/Laws/State.lean ====
section
/-! SUPPORT. One lemma per field per update of State: what the update leaves in the field. -/

namespace Sys2Proof.Machine

variable (s : State)

/-! ### setReg -/

@[simp] theorem setReg_i (x : Reg) (b : Byte) : (s.setReg x b).i = s.i := rfl
@[simp] theorem setReg_pc (x : Reg) (b : Byte) : (s.setReg x b).pc = s.pc := rfl
@[simp] theorem setReg_sp (x : Reg) (b : Byte) : (s.setReg x b).sp = s.sp := rfl
@[simp] theorem setReg_stack (x : Reg) (b : Byte) : (s.setReg x b).stack = s.stack := rfl
@[simp] theorem setReg_dt (x : Reg) (b : Byte) : (s.setReg x b).dt = s.dt := rfl
@[simp] theorem setReg_st (x : Reg) (b : Byte) : (s.setReg x b).st = s.st := rfl
@[simp] theorem setReg_fb (x : Reg) (b : Byte) : (s.setReg x b).fb = s.fb := rfl
@[simp] theorem setReg_keys (x : Reg) (b : Byte) : (s.setReg x b).keys = s.keys := rfl
@[simp] theorem setReg_run (x : Reg) (b : Byte) : (s.setReg x b).run = s.run := rfl
@[simp] theorem setReg_base (x : Reg) (b : Byte) : (s.setReg x b).base = s.base := rfl
@[simp] theorem setReg_err (x : Reg) (b : Byte) : (s.setReg x b).err = s.err := rfl
@[simp] theorem setReg_mem (x : Reg) (b : Byte) : (s.setReg x b).mem = s.mem := rfl
@[simp] theorem setReg_cfg (x : Reg) (b : Byte) : (s.setReg x b).cfg = s.cfg := rfl
@[simp] theorem setReg_schedule (x : Reg) (b : Byte) : (s.setReg x b).schedule = s.schedule := rfl
@[simp] theorem setReg_rand (x : Reg) (b : Byte) : (s.setReg x b).rand = s.rand := rfl
@[simp] theorem setReg_draws (x : Reg) (b : Byte) : (s.setReg x b).draws = s.draws := rfl

/-! ### setI -/

@[simp] theorem setI_v (n : Nat) : (s.setI n).v = s.v := rfl
@[simp] theorem setI_i (n : Nat) : (s.setI n).i = maskIndex s.cfg.iWidth n := rfl
@[simp] theorem setI_pc (n : Nat) : (s.setI n).pc = s.pc := rfl
@[simp] theorem setI_sp (n : Nat) : (s.setI n).sp = s.sp := rfl
@[simp] theorem setI_stack (n : Nat) : (s.setI n).stack = s.stack := rfl
@[simp] theorem setI_dt (n : Nat) : (s.setI n).dt = s.dt := rfl
@[simp] theorem setI_st (n : Nat) : (s.setI n).st = s.st := rfl
@[simp] theorem setI_fb (n : Nat) : (s.setI n).fb = s.fb := rfl
@[simp] theorem setI_keys (n : Nat) : (s.setI n).keys = s.keys := rfl
@[simp] theorem setI_run (n : Nat) : (s.setI n).run = s.run := rfl
@[simp] theorem setI_base (n : Nat) : (s.setI n).base = s.base := rfl
@[simp] theorem setI_err (n : Nat) : (s.setI n).err = s.err := rfl
@[simp] theorem setI_mem (n : Nat) : (s.setI n).mem = s.mem := rfl
@[simp] theorem setI_cfg (n : Nat) : (s.setI n).cfg = s.cfg := rfl
@[simp] theorem setI_schedule (n : Nat) : (s.setI n).schedule = s.schedule := rfl
@[simp] theorem setI_rand (n : Nat) : (s.setI n).rand = s.rand := rfl
@[simp] theorem setI_draws (n : Nat) : (s.setI n).draws = s.draws := rfl

/-! ### setPc -/

@[simp] theorem setPc_v (w : Word) : (s.setPc w).v = s.v := rfl
@[simp] theorem setPc_i (w : Word) : (s.setPc w).i = s.i := rfl
@[simp] theorem setPc_pc (w : Word) : (s.setPc w).pc = w := rfl
@[simp] theorem setPc_sp (w : Word) : (s.setPc w).sp = s.sp := rfl
@[simp] theorem setPc_stack (w : Word) : (s.setPc w).stack = s.stack := rfl
@[simp] theorem setPc_dt (w : Word) : (s.setPc w).dt = s.dt := rfl
@[simp] theorem setPc_st (w : Word) : (s.setPc w).st = s.st := rfl
@[simp] theorem setPc_fb (w : Word) : (s.setPc w).fb = s.fb := rfl
@[simp] theorem setPc_keys (w : Word) : (s.setPc w).keys = s.keys := rfl
@[simp] theorem setPc_run (w : Word) : (s.setPc w).run = s.run := rfl
@[simp] theorem setPc_base (w : Word) : (s.setPc w).base = s.base := rfl
@[simp] theorem setPc_err (w : Word) : (s.setPc w).err = s.err := rfl
@[simp] theorem setPc_mem (w : Word) : (s.setPc w).mem = s.mem := rfl
@[simp] theorem setPc_cfg (w : Word) : (s.setPc w).cfg = s.cfg := rfl
@[simp] theorem setPc_schedule (w : Word) : (s.setPc w).schedule = s.schedule := rfl
@[simp] theorem setPc_rand (w : Word) : (s.setPc w).rand = s.rand := rfl
@[simp] theorem setPc_draws (w : Word) : (s.setPc w).draws = s.draws := rfl

/-! ### advance -/

@[simp] theorem advance_v : (s.advance).v = s.v := rfl
@[simp] theorem advance_i : (s.advance).i = s.i := rfl
@[simp] theorem advance_pc : (s.advance).pc = s.pc + 2 := rfl
@[simp] theorem advance_sp : (s.advance).sp = s.sp := rfl
@[simp] theorem advance_stack : (s.advance).stack = s.stack := rfl
@[simp] theorem advance_dt : (s.advance).dt = s.dt := rfl
@[simp] theorem advance_st : (s.advance).st = s.st := rfl
@[simp] theorem advance_fb : (s.advance).fb = s.fb := rfl
@[simp] theorem advance_keys : (s.advance).keys = s.keys := rfl
@[simp] theorem advance_run : (s.advance).run = s.run := rfl
@[simp] theorem advance_base : (s.advance).base = s.base := rfl
@[simp] theorem advance_err : (s.advance).err = s.err := rfl
@[simp] theorem advance_mem : (s.advance).mem = s.mem := rfl
@[simp] theorem advance_cfg : (s.advance).cfg = s.cfg := rfl
@[simp] theorem advance_schedule : (s.advance).schedule = s.schedule := rfl
@[simp] theorem advance_rand : (s.advance).rand = s.rand := rfl
@[simp] theorem advance_draws : (s.advance).draws = s.draws := rfl

/-! ### skipIf -/

@[simp] theorem skipIf_v (c : Bool) : (s.skipIf c).v = s.v := rfl
@[simp] theorem skipIf_i (c : Bool) : (s.skipIf c).i = s.i := rfl
@[simp] theorem skipIf_pc (c : Bool) : (s.skipIf c).pc = if c then s.pc + 4 else s.pc + 2 := rfl
@[simp] theorem skipIf_sp (c : Bool) : (s.skipIf c).sp = s.sp := rfl
@[simp] theorem skipIf_stack (c : Bool) : (s.skipIf c).stack = s.stack := rfl
@[simp] theorem skipIf_dt (c : Bool) : (s.skipIf c).dt = s.dt := rfl
@[simp] theorem skipIf_st (c : Bool) : (s.skipIf c).st = s.st := rfl
@[simp] theorem skipIf_fb (c : Bool) : (s.skipIf c).fb = s.fb := rfl
@[simp] theorem skipIf_keys (c : Bool) : (s.skipIf c).keys = s.keys := rfl
@[simp] theorem skipIf_run (c : Bool) : (s.skipIf c).run = s.run := rfl
@[simp] theorem skipIf_base (c : Bool) : (s.skipIf c).base = s.base := rfl
@[simp] theorem skipIf_err (c : Bool) : (s.skipIf c).err = s.err := rfl
@[simp] theorem skipIf_mem (c : Bool) : (s.skipIf c).mem = s.mem := rfl
@[simp] theorem skipIf_cfg (c : Bool) : (s.skipIf c).cfg = s.cfg := rfl
@[simp] theorem skipIf_schedule (c : Bool) : (s.skipIf c).schedule = s.schedule := rfl
@[simp] theorem skipIf_rand (c : Bool) : (s.skipIf c).rand = s.rand := rfl
@[simp] theorem skipIf_draws (c : Bool) : (s.skipIf c).draws = s.draws := rfl

/-! ### writeByte -/

@[simp] theorem writeByte_v (a : Nat) (b : Byte) : (s.writeByte a b).v = s.v := rfl
@[simp] theorem writeByte_i (a : Nat) (b : Byte) : (s.writeByte a b).i = s.i := rfl
@[simp] theorem writeByte_pc (a : Nat) (b : Byte) : (s.writeByte a b).pc = s.pc := rfl
@[simp] theorem writeByte_sp (a : Nat) (b : Byte) : (s.writeByte a b).sp = s.sp := rfl
@[simp] theorem writeByte_stack (a : Nat) (b : Byte) : (s.writeByte a b).stack = s.stack := rfl
@[simp] theorem writeByte_dt (a : Nat) (b : Byte) : (s.writeByte a b).dt = s.dt := rfl
@[simp] theorem writeByte_st (a : Nat) (b : Byte) : (s.writeByte a b).st = s.st := rfl
@[simp] theorem writeByte_fb (a : Nat) (b : Byte) : (s.writeByte a b).fb = s.fb := rfl
@[simp] theorem writeByte_keys (a : Nat) (b : Byte) : (s.writeByte a b).keys = s.keys := rfl
@[simp] theorem writeByte_run (a : Nat) (b : Byte) : (s.writeByte a b).run = s.run := rfl
@[simp] theorem writeByte_base (a : Nat) (b : Byte) : (s.writeByte a b).base = s.base := rfl
@[simp] theorem writeByte_err (a : Nat) (b : Byte) : (s.writeByte a b).err = s.err := rfl
@[simp] theorem writeByte_cfg (a : Nat) (b : Byte) : (s.writeByte a b).cfg = s.cfg := rfl
@[simp] theorem writeByte_schedule (a : Nat) (b : Byte) : (s.writeByte a b).schedule = s.schedule := rfl
@[simp] theorem writeByte_rand (a : Nat) (b : Byte) : (s.writeByte a b).rand = s.rand := rfl
@[simp] theorem writeByte_draws (a : Nat) (b : Byte) : (s.writeByte a b).draws = s.draws := rfl

/-! ### fail -/

@[simp] theorem fail_v (k : ErrKind) (p w : Word) : (s.fail k p w).v = s.v := rfl
@[simp] theorem fail_i (k : ErrKind) (p w : Word) : (s.fail k p w).i = s.i := rfl
@[simp] theorem fail_pc (k : ErrKind) (p w : Word) : (s.fail k p w).pc = s.pc := rfl
@[simp] theorem fail_sp (k : ErrKind) (p w : Word) : (s.fail k p w).sp = s.sp := rfl
@[simp] theorem fail_stack (k : ErrKind) (p w : Word) : (s.fail k p w).stack = s.stack := rfl
@[simp] theorem fail_dt (k : ErrKind) (p w : Word) : (s.fail k p w).dt = s.dt := rfl
@[simp] theorem fail_st (k : ErrKind) (p w : Word) : (s.fail k p w).st = s.st := rfl
@[simp] theorem fail_fb (k : ErrKind) (p w : Word) : (s.fail k p w).fb = s.fb := rfl
@[simp] theorem fail_keys (k : ErrKind) (p w : Word) : (s.fail k p w).keys = s.keys := rfl
@[simp] theorem fail_run (k : ErrKind) (p w : Word) : (s.fail k p w).run = .faulted := rfl
@[simp] theorem fail_base (k : ErrKind) (p w : Word) : (s.fail k p w).base = s.base := rfl
@[simp] theorem fail_err (k : ErrKind) (p w : Word) : (s.fail k p w).err = { kind := k, pc := p, opcode := w } := rfl
@[simp] theorem fail_mem (k : ErrKind) (p w : Word) : (s.fail k p w).mem = s.mem := rfl
@[simp] theorem fail_cfg (k : ErrKind) (p w : Word) : (s.fail k p w).cfg = s.cfg := rfl
@[simp] theorem fail_schedule (k : ErrKind) (p w : Word) : (s.fail k p w).schedule = s.schedule := rfl
@[simp] theorem fail_rand (k : ErrKind) (p w : Word) : (s.fail k p w).rand = s.rand := rfl
@[simp] theorem fail_draws (k : ErrKind) (p w : Word) : (s.fail k p w).draws = s.draws := rfl

/-! ### raise -/

@[simp] theorem raise_v (k : ErrKind) (w : Word) : (s.raise k w).v = s.v := rfl
@[simp] theorem raise_i (k : ErrKind) (w : Word) : (s.raise k w).i = s.i := rfl
@[simp] theorem raise_pc (k : ErrKind) (w : Word) : (s.raise k w).pc = s.pc := rfl
@[simp] theorem raise_sp (k : ErrKind) (w : Word) : (s.raise k w).sp = s.sp := rfl
@[simp] theorem raise_stack (k : ErrKind) (w : Word) : (s.raise k w).stack = s.stack := rfl
@[simp] theorem raise_dt (k : ErrKind) (w : Word) : (s.raise k w).dt = s.dt := rfl
@[simp] theorem raise_st (k : ErrKind) (w : Word) : (s.raise k w).st = s.st := rfl
@[simp] theorem raise_fb (k : ErrKind) (w : Word) : (s.raise k w).fb = s.fb := rfl
@[simp] theorem raise_keys (k : ErrKind) (w : Word) : (s.raise k w).keys = s.keys := rfl
@[simp] theorem raise_run (k : ErrKind) (w : Word) : (s.raise k w).run = .faulted := rfl
@[simp] theorem raise_base (k : ErrKind) (w : Word) : (s.raise k w).base = s.base := rfl
@[simp] theorem raise_err (k : ErrKind) (w : Word) : (s.raise k w).err = { kind := k, pc := s.pc, opcode := w } := rfl
@[simp] theorem raise_mem (k : ErrKind) (w : Word) : (s.raise k w).mem = s.mem := rfl
@[simp] theorem raise_cfg (k : ErrKind) (w : Word) : (s.raise k w).cfg = s.cfg := rfl
@[simp] theorem raise_schedule (k : ErrKind) (w : Word) : (s.raise k w).schedule = s.schedule := rfl
@[simp] theorem raise_rand (k : ErrKind) (w : Word) : (s.raise k w).rand = s.rand := rfl
@[simp] theorem raise_draws (k : ErrKind) (w : Word) : (s.raise k w).draws = s.draws := rfl

/-! ### consumeDraw -/

@[simp] theorem consumeDraw_v : (s.consumeDraw).v = s.v := rfl
@[simp] theorem consumeDraw_i : (s.consumeDraw).i = s.i := rfl
@[simp] theorem consumeDraw_pc : (s.consumeDraw).pc = s.pc := rfl
@[simp] theorem consumeDraw_sp : (s.consumeDraw).sp = s.sp := rfl
@[simp] theorem consumeDraw_stack : (s.consumeDraw).stack = s.stack := rfl
@[simp] theorem consumeDraw_dt : (s.consumeDraw).dt = s.dt := rfl
@[simp] theorem consumeDraw_st : (s.consumeDraw).st = s.st := rfl
@[simp] theorem consumeDraw_fb : (s.consumeDraw).fb = s.fb := rfl
@[simp] theorem consumeDraw_keys : (s.consumeDraw).keys = s.keys := rfl
@[simp] theorem consumeDraw_run : (s.consumeDraw).run = s.run := rfl
@[simp] theorem consumeDraw_base : (s.consumeDraw).base = s.base := rfl
@[simp] theorem consumeDraw_err : (s.consumeDraw).err = s.err := rfl
@[simp] theorem consumeDraw_mem : (s.consumeDraw).mem = s.mem := rfl
@[simp] theorem consumeDraw_cfg : (s.consumeDraw).cfg = s.cfg := rfl
@[simp] theorem consumeDraw_schedule : (s.consumeDraw).schedule = s.schedule := rfl
@[simp] theorem consumeDraw_rand : (s.consumeDraw).rand = s.rand := rfl

/-! ### tick -/

@[simp] theorem tick_v : (s.tick).v = s.v := rfl
@[simp] theorem tick_i : (s.tick).i = s.i := rfl
@[simp] theorem tick_pc : (s.tick).pc = s.pc := rfl
@[simp] theorem tick_sp : (s.tick).sp = s.sp := rfl
@[simp] theorem tick_stack : (s.tick).stack = s.stack := rfl
@[simp] theorem tick_dt : (s.tick).dt = tickTimer s.dt := rfl
@[simp] theorem tick_st : (s.tick).st = tickTimer s.st := rfl
@[simp] theorem tick_fb : (s.tick).fb = s.fb := rfl
@[simp] theorem tick_keys : (s.tick).keys = s.keys := rfl
@[simp] theorem tick_run : (s.tick).run = s.run := rfl
@[simp] theorem tick_base : (s.tick).base = s.base := rfl
@[simp] theorem tick_err : (s.tick).err = s.err := rfl
@[simp] theorem tick_mem : (s.tick).mem = s.mem := rfl
@[simp] theorem tick_cfg : (s.tick).cfg = s.cfg := rfl
@[simp] theorem tick_schedule : (s.tick).schedule = s.schedule := rfl
@[simp] theorem tick_rand : (s.tick).rand = s.rand := rfl
@[simp] theorem tick_draws : (s.tick).draws = s.draws := rfl

/-! ### keyWrite -/

@[simp] theorem keyWrite_v (k : BitVec 16) : (s.keyWrite k).v = s.v := rfl
@[simp] theorem keyWrite_i (k : BitVec 16) : (s.keyWrite k).i = s.i := rfl
@[simp] theorem keyWrite_pc (k : BitVec 16) : (s.keyWrite k).pc = s.pc := rfl
@[simp] theorem keyWrite_sp (k : BitVec 16) : (s.keyWrite k).sp = s.sp := rfl
@[simp] theorem keyWrite_stack (k : BitVec 16) : (s.keyWrite k).stack = s.stack := rfl
@[simp] theorem keyWrite_dt (k : BitVec 16) : (s.keyWrite k).dt = s.dt := rfl
@[simp] theorem keyWrite_st (k : BitVec 16) : (s.keyWrite k).st = s.st := rfl
@[simp] theorem keyWrite_fb (k : BitVec 16) : (s.keyWrite k).fb = s.fb := rfl
@[simp] theorem keyWrite_keys (k : BitVec 16) : (s.keyWrite k).keys = k := rfl
@[simp] theorem keyWrite_run (k : BitVec 16) : (s.keyWrite k).run = s.run := rfl
@[simp] theorem keyWrite_base (k : BitVec 16) : (s.keyWrite k).base = s.base := rfl
@[simp] theorem keyWrite_err (k : BitVec 16) : (s.keyWrite k).err = s.err := rfl
@[simp] theorem keyWrite_mem (k : BitVec 16) : (s.keyWrite k).mem = s.mem := rfl
@[simp] theorem keyWrite_cfg (k : BitVec 16) : (s.keyWrite k).cfg = s.cfg := rfl
@[simp] theorem keyWrite_schedule (k : BitVec 16) : (s.keyWrite k).schedule = s.schedule := rfl
@[simp] theorem keyWrite_rand (k : BitVec 16) : (s.keyWrite k).rand = s.rand := rfl
@[simp] theorem keyWrite_draws (k : BitVec 16) : (s.keyWrite k).draws = s.draws := rfl

/-! ### hardReset -/

@[simp] theorem hardReset_v : s.hardReset.v = State.reset.v := rfl
@[simp] theorem hardReset_i : s.hardReset.i = State.reset.i := rfl
@[simp] theorem hardReset_pc : s.hardReset.pc = State.reset.pc := rfl
@[simp] theorem hardReset_sp : s.hardReset.sp = State.reset.sp := rfl
@[simp] theorem hardReset_stack : s.hardReset.stack = State.reset.stack := rfl
@[simp] theorem hardReset_dt : s.hardReset.dt = State.reset.dt := rfl
@[simp] theorem hardReset_st : s.hardReset.st = State.reset.st := rfl
@[simp] theorem hardReset_fb : s.hardReset.fb = State.reset.fb := rfl
@[simp] theorem hardReset_keys : s.hardReset.keys = State.reset.keys := rfl
@[simp] theorem hardReset_run : s.hardReset.run = State.reset.run := rfl
@[simp] theorem hardReset_base : s.hardReset.base = State.reset.base := rfl
@[simp] theorem hardReset_err : s.hardReset.err = State.reset.err := rfl
@[simp] theorem hardReset_mem : s.hardReset.mem = State.reset.mem := rfl
@[simp] theorem hardReset_cfg : s.hardReset.cfg = s.cfg := rfl
@[simp] theorem hardReset_schedule : s.hardReset.schedule = s.schedule := rfl
@[simp] theorem hardReset_rand : s.hardReset.rand = State.reset.rand := rfl
@[simp] theorem hardReset_draws : s.hardReset.draws = s.draws := rfl

/-! ### Updates that recurse over a list or branch -/

@[simp] theorem memWrite_v (a : Nat) (bs : List Byte) : (s.memWrite a bs).v = s.v := by
  induction bs generalizing s a with
  | nil => rfl
  | cons b bs ih => simp [State.memWrite, ih]
@[simp] theorem memWrite_i (a : Nat) (bs : List Byte) : (s.memWrite a bs).i = s.i := by
  induction bs generalizing s a with
  | nil => rfl
  | cons b bs ih => simp [State.memWrite, ih]
@[simp] theorem memWrite_pc (a : Nat) (bs : List Byte) : (s.memWrite a bs).pc = s.pc := by
  induction bs generalizing s a with
  | nil => rfl
  | cons b bs ih => simp [State.memWrite, ih]
@[simp] theorem memWrite_sp (a : Nat) (bs : List Byte) : (s.memWrite a bs).sp = s.sp := by
  induction bs generalizing s a with
  | nil => rfl
  | cons b bs ih => simp [State.memWrite, ih]
@[simp] theorem memWrite_stack (a : Nat) (bs : List Byte) : (s.memWrite a bs).stack = s.stack := by
  induction bs generalizing s a with
  | nil => rfl
  | cons b bs ih => simp [State.memWrite, ih]
@[simp] theorem memWrite_dt (a : Nat) (bs : List Byte) : (s.memWrite a bs).dt = s.dt := by
  induction bs generalizing s a with
  | nil => rfl
  | cons b bs ih => simp [State.memWrite, ih]
@[simp] theorem memWrite_st (a : Nat) (bs : List Byte) : (s.memWrite a bs).st = s.st := by
  induction bs generalizing s a with
  | nil => rfl
  | cons b bs ih => simp [State.memWrite, ih]
@[simp] theorem memWrite_fb (a : Nat) (bs : List Byte) : (s.memWrite a bs).fb = s.fb := by
  induction bs generalizing s a with
  | nil => rfl
  | cons b bs ih => simp [State.memWrite, ih]
@[simp] theorem memWrite_keys (a : Nat) (bs : List Byte) : (s.memWrite a bs).keys = s.keys := by
  induction bs generalizing s a with
  | nil => rfl
  | cons b bs ih => simp [State.memWrite, ih]
@[simp] theorem memWrite_run (a : Nat) (bs : List Byte) : (s.memWrite a bs).run = s.run := by
  induction bs generalizing s a with
  | nil => rfl
  | cons b bs ih => simp [State.memWrite, ih]
@[simp] theorem memWrite_base (a : Nat) (bs : List Byte) : (s.memWrite a bs).base = s.base := by
  induction bs generalizing s a with
  | nil => rfl
  | cons b bs ih => simp [State.memWrite, ih]
@[simp] theorem memWrite_err (a : Nat) (bs : List Byte) : (s.memWrite a bs).err = s.err := by
  induction bs generalizing s a with
  | nil => rfl
  | cons b bs ih => simp [State.memWrite, ih]
@[simp] theorem memWrite_cfg (a : Nat) (bs : List Byte) : (s.memWrite a bs).cfg = s.cfg := by
  induction bs generalizing s a with
  | nil => rfl
  | cons b bs ih => simp [State.memWrite, ih]
@[simp] theorem memWrite_schedule (a : Nat) (bs : List Byte) : (s.memWrite a bs).schedule = s.schedule := by
  induction bs generalizing s a with
  | nil => rfl
  | cons b bs ih => simp [State.memWrite, ih]
@[simp] theorem memWrite_rand (a : Nat) (bs : List Byte) : (s.memWrite a bs).rand = s.rand := by
  induction bs generalizing s a with
  | nil => rfl
  | cons b bs ih => simp [State.memWrite, ih]
@[simp] theorem memWrite_draws (a : Nat) (bs : List Byte) : (s.memWrite a bs).draws = s.draws := by
  induction bs generalizing s a with
  | nil => rfl
  | cons b bs ih => simp [State.memWrite, ih]
@[simp] theorem setRegsFrom_i (k : Nat) (bs : List Byte) : (s.setRegsFrom k bs).i = s.i := by
  induction bs generalizing s k with
  | nil => rfl
  | cons b bs ih => simp [State.setRegsFrom, ih]
@[simp] theorem setRegsFrom_pc (k : Nat) (bs : List Byte) : (s.setRegsFrom k bs).pc = s.pc := by
  induction bs generalizing s k with
  | nil => rfl
  | cons b bs ih => simp [State.setRegsFrom, ih]
@[simp] theorem setRegsFrom_sp (k : Nat) (bs : List Byte) : (s.setRegsFrom k bs).sp = s.sp := by
  induction bs generalizing s k with
  | nil => rfl
  | cons b bs ih => simp [State.setRegsFrom, ih]
@[simp] theorem setRegsFrom_stack (k : Nat) (bs : List Byte) : (s.setRegsFrom k bs).stack = s.stack := by
  induction bs generalizing s k with
  | nil => rfl
  | cons b bs ih => simp [State.setRegsFrom, ih]
@[simp] theorem setRegsFrom_dt (k : Nat) (bs : List Byte) : (s.setRegsFrom k bs).dt = s.dt := by
  induction bs generalizing s k with
  | nil => rfl
  | cons b bs ih => simp [State.setRegsFrom, ih]
@[simp] theorem setRegsFrom_st (k : Nat) (bs : List Byte) : (s.setRegsFrom k bs).st = s.st := by
  induction bs generalizing s k with
  | nil => rfl
  | cons b bs ih => simp [State.setRegsFrom, ih]
@[simp] theorem setRegsFrom_fb (k : Nat) (bs : List Byte) : (s.setRegsFrom k bs).fb = s.fb := by
  induction bs generalizing s k with
  | nil => rfl
  | cons b bs ih => simp [State.setRegsFrom, ih]
@[simp] theorem setRegsFrom_keys (k : Nat) (bs : List Byte) : (s.setRegsFrom k bs).keys = s.keys := by
  induction bs generalizing s k with
  | nil => rfl
  | cons b bs ih => simp [State.setRegsFrom, ih]
@[simp] theorem setRegsFrom_run (k : Nat) (bs : List Byte) : (s.setRegsFrom k bs).run = s.run := by
  induction bs generalizing s k with
  | nil => rfl
  | cons b bs ih => simp [State.setRegsFrom, ih]
@[simp] theorem setRegsFrom_base (k : Nat) (bs : List Byte) : (s.setRegsFrom k bs).base = s.base := by
  induction bs generalizing s k with
  | nil => rfl
  | cons b bs ih => simp [State.setRegsFrom, ih]
@[simp] theorem setRegsFrom_err (k : Nat) (bs : List Byte) : (s.setRegsFrom k bs).err = s.err := by
  induction bs generalizing s k with
  | nil => rfl
  | cons b bs ih => simp [State.setRegsFrom, ih]
@[simp] theorem setRegsFrom_mem (k : Nat) (bs : List Byte) : (s.setRegsFrom k bs).mem = s.mem := by
  induction bs generalizing s k with
  | nil => rfl
  | cons b bs ih => simp [State.setRegsFrom, ih]
@[simp] theorem setRegsFrom_cfg (k : Nat) (bs : List Byte) : (s.setRegsFrom k bs).cfg = s.cfg := by
  induction bs generalizing s k with
  | nil => rfl
  | cons b bs ih => simp [State.setRegsFrom, ih]
@[simp] theorem setRegsFrom_schedule (k : Nat) (bs : List Byte) : (s.setRegsFrom k bs).schedule = s.schedule := by
  induction bs generalizing s k with
  | nil => rfl
  | cons b bs ih => simp [State.setRegsFrom, ih]
@[simp] theorem setRegsFrom_rand (k : Nat) (bs : List Byte) : (s.setRegsFrom k bs).rand = s.rand := by
  induction bs generalizing s k with
  | nil => rfl
  | cons b bs ih => simp [State.setRegsFrom, ih]
@[simp] theorem setRegsFrom_draws (k : Nat) (bs : List Byte) : (s.setRegsFrom k bs).draws = s.draws := by
  induction bs generalizing s k with
  | nil => rfl
  | cons b bs ih => simp [State.setRegsFrom, ih]
@[simp] theorem writeResultAndFlag_i (x : Reg) (res flag : Byte) : (s.writeResultAndFlag x res flag).i = s.i := by
  unfold State.writeResultAndFlag; split <;> rfl
@[simp] theorem writeResultAndFlag_pc (x : Reg) (res flag : Byte) : (s.writeResultAndFlag x res flag).pc = s.pc := by
  unfold State.writeResultAndFlag; split <;> rfl
@[simp] theorem writeResultAndFlag_sp (x : Reg) (res flag : Byte) : (s.writeResultAndFlag x res flag).sp = s.sp := by
  unfold State.writeResultAndFlag; split <;> rfl
@[simp] theorem writeResultAndFlag_stack (x : Reg) (res flag : Byte) : (s.writeResultAndFlag x res flag).stack = s.stack := by
  unfold State.writeResultAndFlag; split <;> rfl
@[simp] theorem writeResultAndFlag_dt (x : Reg) (res flag : Byte) : (s.writeResultAndFlag x res flag).dt = s.dt := by
  unfold State.writeResultAndFlag; split <;> rfl
@[simp] theorem writeResultAndFlag_st (x : Reg) (res flag : Byte) : (s.writeResultAndFlag x res flag).st = s.st := by
  unfold State.writeResultAndFlag; split <;> rfl
@[simp] theorem writeResultAndFlag_fb (x : Reg) (res flag : Byte) : (s.writeResultAndFlag x res flag).fb = s.fb := by
  unfold State.writeResultAndFlag; split <;> rfl
@[simp] theorem writeResultAndFlag_keys (x : Reg) (res flag : Byte) : (s.writeResultAndFlag x res flag).keys = s.keys := by
  unfold State.writeResultAndFlag; split <;> rfl
@[simp] theorem writeResultAndFlag_run (x : Reg) (res flag : Byte) : (s.writeResultAndFlag x res flag).run = s.run := by
  unfold State.writeResultAndFlag; split <;> rfl
@[simp] theorem writeResultAndFlag_base (x : Reg) (res flag : Byte) : (s.writeResultAndFlag x res flag).base = s.base := by
  unfold State.writeResultAndFlag; split <;> rfl
@[simp] theorem writeResultAndFlag_err (x : Reg) (res flag : Byte) : (s.writeResultAndFlag x res flag).err = s.err := by
  unfold State.writeResultAndFlag; split <;> rfl
@[simp] theorem writeResultAndFlag_mem (x : Reg) (res flag : Byte) : (s.writeResultAndFlag x res flag).mem = s.mem := by
  unfold State.writeResultAndFlag; split <;> rfl
@[simp] theorem writeResultAndFlag_cfg (x : Reg) (res flag : Byte) : (s.writeResultAndFlag x res flag).cfg = s.cfg := by
  unfold State.writeResultAndFlag; split <;> rfl
@[simp] theorem writeResultAndFlag_schedule (x : Reg) (res flag : Byte) : (s.writeResultAndFlag x res flag).schedule = s.schedule := by
  unfold State.writeResultAndFlag; split <;> rfl
@[simp] theorem writeResultAndFlag_rand (x : Reg) (res flag : Byte) : (s.writeResultAndFlag x res flag).rand = s.rand := by
  unfold State.writeResultAndFlag; split <;> rfl
@[simp] theorem writeResultAndFlag_draws (x : Reg) (res flag : Byte) : (s.writeResultAndFlag x res flag).draws = s.draws := by
  unfold State.writeResultAndFlag; split <;> rfl
@[simp] theorem load_v (start : Nat) (bs : List Byte) : (s.load start bs).v = s.v := by
  unfold State.load; split <;> simp
@[simp] theorem load_i (start : Nat) (bs : List Byte) : (s.load start bs).i = s.i := by
  unfold State.load; split <;> simp
@[simp] theorem load_pc (start : Nat) (bs : List Byte) : (s.load start bs).pc = s.pc := by
  unfold State.load; split <;> simp
@[simp] theorem load_sp (start : Nat) (bs : List Byte) : (s.load start bs).sp = s.sp := by
  unfold State.load; split <;> simp
@[simp] theorem load_stack (start : Nat) (bs : List Byte) : (s.load start bs).stack = s.stack := by
  unfold State.load; split <;> simp
@[simp] theorem load_dt (start : Nat) (bs : List Byte) : (s.load start bs).dt = s.dt := by
  unfold State.load; split <;> simp
@[simp] theorem load_st (start : Nat) (bs : List Byte) : (s.load start bs).st = s.st := by
  unfold State.load; split <;> simp
@[simp] theorem load_fb (start : Nat) (bs : List Byte) : (s.load start bs).fb = s.fb := by
  unfold State.load; split <;> simp
@[simp] theorem load_keys (start : Nat) (bs : List Byte) : (s.load start bs).keys = s.keys := by
  unfold State.load; split <;> simp
@[simp] theorem load_base (start : Nat) (bs : List Byte) : (s.load start bs).base = s.base := by
  unfold State.load; split <;> simp
@[simp] theorem load_cfg (start : Nat) (bs : List Byte) : (s.load start bs).cfg = s.cfg := by
  unfold State.load; split <;> simp
@[simp] theorem load_schedule (start : Nat) (bs : List Byte) : (s.load start bs).schedule = s.schedule := by
  unfold State.load; split <;> simp
@[simp] theorem load_rand (start : Nat) (bs : List Byte) : (s.load start bs).rand = s.rand := by
  unfold State.load; split <;> simp
@[simp] theorem load_draws (start : Nat) (bs : List Byte) : (s.load start bs).draws = s.draws := by
  unfold State.load; split <;> simp
@[simp] theorem waitRetry_i (r : Reg) : (s.waitRetry r).i = s.i := by
  unfold State.waitRetry; split <;> rfl
@[simp] theorem waitRetry_sp (r : Reg) : (s.waitRetry r).sp = s.sp := by
  unfold State.waitRetry; split <;> rfl
@[simp] theorem waitRetry_stack (r : Reg) : (s.waitRetry r).stack = s.stack := by
  unfold State.waitRetry; split <;> rfl
@[simp] theorem waitRetry_dt (r : Reg) : (s.waitRetry r).dt = s.dt := by
  unfold State.waitRetry; split <;> rfl
@[simp] theorem waitRetry_st (r : Reg) : (s.waitRetry r).st = s.st := by
  unfold State.waitRetry; split <;> rfl
@[simp] theorem waitRetry_fb (r : Reg) : (s.waitRetry r).fb = s.fb := by
  unfold State.waitRetry; split <;> rfl
@[simp] theorem waitRetry_keys (r : Reg) : (s.waitRetry r).keys = s.keys := by
  unfold State.waitRetry; split <;> rfl
@[simp] theorem waitRetry_err (r : Reg) : (s.waitRetry r).err = s.err := by
  unfold State.waitRetry; split <;> rfl
@[simp] theorem waitRetry_mem (r : Reg) : (s.waitRetry r).mem = s.mem := by
  unfold State.waitRetry; split <;> rfl
@[simp] theorem waitRetry_cfg (r : Reg) : (s.waitRetry r).cfg = s.cfg := by
  unfold State.waitRetry; split <;> rfl
@[simp] theorem waitRetry_schedule (r : Reg) : (s.waitRetry r).schedule = s.schedule := by
  unfold State.waitRetry; split <;> rfl
@[simp] theorem waitRetry_rand (r : Reg) : (s.waitRetry r).rand = s.rand := by
  unfold State.waitRetry; split <;> rfl
@[simp] theorem waitRetry_draws (r : Reg) : (s.waitRetry r).draws = s.draws := by
  unfold State.waitRetry; split <;> rfl

/-! ### Registers -/

/-- A register after a write: the value written, or what it held. -/
theorem reg_setReg (x y : Reg) (b : Byte) : (s.setReg x b).reg y = if x = y then b else s.reg y := by
  simp only [State.reg, State.setReg, Fin.getElem_fin, Vector.getElem_set, Fin.ext_iff]

@[simp] theorem reg_setReg_same (x : Reg) (b : Byte) : (s.setReg x b).reg x = b := by simp [reg_setReg]

theorem setReg_v (x : Reg) (b : Byte) : (s.setReg x b).v = s.v.set x.val b x.isLt := rfl

theorem writeResultAndFlag_v (x : Reg) (res flag : Byte) :
    (s.writeResultAndFlag x res flag).v =
      if s.cfg.vfLast then (s.v.set x.val res x.isLt).set 15 flag else (s.v.set 15 flag).set x.val res x.isLt := by
  unfold State.writeResultAndFlag; split <;> rfl

end Sys2Proof.Machine
end

