-- ==== Sys2Proof/Laws/Memory.lean ====
section
/-! SUPPORT. The laws of the memory list: the canonical form is kept by every write, a read gives the last write, and
two canonical lists that read alike are equal; the same for the reads and writes of State. -/

namespace Sys2Proof.Machine

variable {bg : Nat → Byte}

/-- The canonical form of a list with a front entry. -/
theorem Memory.wf_cons {c : Host.Cell} {m : Memory} :
    Memory.wf bg (c :: m) ↔ (∀ d ∈ m, c.1 < d.1) ∧ c.1 < 4096 ∧ c.2 ≠ bg c.1 ∧ Memory.wf bg m := by
  simp only [Memory.wf, List.pairwise_cons, List.forall_mem_cons]
  tauto

/-- Below every listed address a read gives the background. -/
theorem Memory.read_of_lt {m : Memory} {a : Nat} (h : ∀ c ∈ m, a < c.1) : Memory.read bg m a = bg a := by
  induction m with
  | nil => rfl
  | cons c m ih =>
    have hc : a < c.1 := h c (by simp)
    simp only [Memory.read, if_neg (Nat.ne_of_lt hc)]
    exact ih fun d hd => h d (by simp [hd])

/-- What a write lists: the address it names, or an address that was listed. -/
theorem Memory.mem_write {m : Memory} {a : Nat} {v : Byte} {c : Host.Cell} (h : c ∈ Memory.write bg m a v) :
    (c = (a, v) ∧ v ≠ bg a) ∨ c ∈ m := by
  induction m with
  | nil => simp only [Memory.write] at h; split at h <;> simp_all
  | cons d m ih =>
    simp only [Memory.write] at h
    split at h
    · split at h
      · exact .inr h
      · simp_all
    · split at h
      · split at h <;> simp_all
        tauto
      · simp only [List.mem_cons] at h ⊢
        rcases h with h | h
        · exact .inr (.inl h)
        · rcases ih h with h | h
          · exact .inl h
          · exact .inr (.inr h)

/-- Every write keeps the canonical form. -/
theorem Memory.write_wf {m : Memory} {a : Nat} (v : Byte) (hm : Memory.wf bg m) (ha : a < 4096) :
    Memory.wf bg (Memory.write bg m a v) := by
  induction m with
  | nil => simp only [Memory.write]; split <;> simp_all [Memory.wf]
  | cons c m ih =>
    obtain ⟨hlt, hc, hne, hm'⟩ := Memory.wf_cons.1 hm
    simp only [Memory.write]
    split
    case isTrue h1 =>
      split
      · exact hm
      case isFalse h2 =>
        refine Memory.wf_cons.2 ⟨?_, ha, h2, hm⟩
        intro d hd
        rcases List.mem_cons.1 hd with rfl | hd
        · exact h1
        · exact Nat.lt_trans h1 (hlt d hd)
    case isFalse h1 =>
      split
      case isTrue h2 =>
        split
        · exact hm'
        case isFalse h3 =>
          exact Memory.wf_cons.2 ⟨fun d hd => h2 ▸ hlt d hd, ha, h3, hm'⟩
      case isFalse h2 =>
        refine Memory.wf_cons.2 ⟨?_, hc, hne, ih hm'⟩
        intro d hd
        rcases Memory.mem_write hd with ⟨rfl, -⟩ | hd
        · show c.1 < a; omega
        · exact hlt d hd

/-- A read after a write: the byte written, or what the address held. -/
theorem Memory.read_write {m : Memory} (hm : Memory.wf bg m) (a c : Nat) (v : Byte) :
    Memory.read bg (Memory.write bg m a v) c = if c = a then v else Memory.read bg m c := by
  induction m with
  | nil => simp only [Memory.write, Memory.read]; split <;> simp_all [Memory.read]
  | cons d m ih =>
    obtain ⟨hlt, -, -, hm'⟩ := Memory.wf_cons.1 hm
    have below : ∀ {e}, e ≤ d.1 → Memory.read bg m e = bg e := fun he =>
      Memory.read_of_lt fun f hf => Nat.lt_of_le_of_lt he (hlt f hf)
    simp only [Memory.write]
    split
    case isTrue h1 =>
      split
      case isTrue h2 =>
        by_cases hca : c = a
        · subst hca; simp [Memory.read, Nat.ne_of_lt h1, below (Nat.le_of_lt h1), h2]
        · simp [hca]
      case isFalse h2 => simp [Memory.read]
    case isFalse h1 =>
      split
      case isTrue h2 =>
        subst h2
        split
        case isTrue h3 =>
          by_cases hca : c = d.1
          · subst hca; simp [below (Nat.le_refl _), h3]
          · simp [Memory.read, hca]
        case isFalse h3 => by_cases hca : c = d.1 <;> simp [Memory.read, hca]
      case isFalse h2 =>
        simp only [Memory.read, ih hm']
        by_cases hcd : c = d.1
        · subst hcd; simp [Ne.symm h2]
        · simp [hcd]

/-- In a canonical memory an address that reads as the background is not listed. -/
theorem Memory.read_of_mem {m : Memory} (hm : Memory.wf bg m) {c : Host.Cell} (hc : c ∈ m) :
    Memory.read bg m c.1 = c.2 := by
  induction m with
  | nil => simp at hc
  | cons d m ih =>
    obtain ⟨hlt, -, -, hm'⟩ := Memory.wf_cons.1 hm
    rcases List.mem_cons.1 hc with rfl | hc
    · simp [Memory.read]
    · have := hlt c hc
      simp [Memory.read, Nat.ne_of_gt this, ih hm' hc]

/-! ### Reads and writes of State -/

theorem wrapAddr_lt (a : Nat) : wrapAddr a < 4096 := Nat.mod_lt _ (by decide)

@[simp] theorem wrapAddr_mod (a : Nat) : wrapAddr (a % 4096) = wrapAddr a := Nat.mod_mod _ _

/-- R62: an address counts modulo 4096. -/
@[simp] theorem readByte_mod (s : State) (a : Nat) : s.readByte (a % 4096) = s.readByte a := by
  simp [State.readByte]

/-- A read depends on MEM and on the parameters only. -/
theorem readByte_congr {s t : State} (hm : t.mem = s.mem) (hc : t.cfg = s.cfg) (a : Nat) :
    t.readByte a = s.readByte a := by simp [State.readByte, hm, hc]

theorem writeByte_memLegal {s : State} (h : s.MemLegal) (a : Nat) (b : Byte) : (s.writeByte a b).MemLegal :=
  Memory.write_wf b h (wrapAddr_lt a)

/-- A byte after a write: the byte written at its address modulo 4096, or what it held. -/
theorem readByte_writeByte {s : State} (h : s.MemLegal) (a c : Nat) (b : Byte) :
    (s.writeByte a b).readByte c = if c % 4096 = a % 4096 then b else s.readByte c :=
  Memory.read_write h (wrapAddr a) (wrapAddr c) b

theorem memWrite_memLegal {s : State} (h : s.MemLegal) (a : Nat) (bs : List Byte) : (s.memWrite a bs).MemLegal := by
  induction bs generalizing s a with
  | nil => exact h
  | cons b bs ih => exact ih (writeByte_memLegal h a b) (a + 1)

/-- Outside the block a write of bytes changes nothing. -/
theorem readByte_memWrite_other {s : State} (h : s.MemLegal) (a c : Nat) (bs : List Byte)
    (hc : ∀ k, k < bs.length → (a + k) % 4096 ≠ c % 4096) : (s.memWrite a bs).readByte c = s.readByte c := by
  induction bs generalizing s a with
  | nil => rfl
  | cons b bs ih =>
    have h0 : c % 4096 ≠ a % 4096 := fun e => hc 0 (by simp) (by simpa using e.symm)
    rw [State.memWrite, ih (writeByte_memLegal h a b) (a + 1), readByte_writeByte h, if_neg h0]
    intro k hk
    have := hc (k + 1) (by simpa using hk)
    rwa [Nat.add_right_comm, ← Nat.add_assoc] at *

/-- Inside the block each byte is the byte written, as long as the block is no longer than MEM. -/
theorem readByte_memWrite_same {s : State} (h : s.MemLegal) (a : Nat) (bs : List Byte) (hl : bs.length ≤ 4096)
    {k : Nat} (hk : k < bs.length) : (s.memWrite a bs).readByte (a + k) = bs[k] := by
  induction bs generalizing s a k with
  | nil => simp at hk
  | cons b bs ih =>
    simp only [List.length_cons] at hl hk
    cases k with
    | zero =>
      rw [State.memWrite, readByte_memWrite_other (writeByte_memLegal h a b), readByte_writeByte h]
      · simp
      · intro j hj; omega
    | succ k =>
      have := ih (writeByte_memLegal h a b) (a + 1) (by omega) (k := k) (by omega)
      simpa [State.memWrite, Nat.add_assoc, Nat.add_comm 1 k] using this

theorem memRead_length (s : State) (a n : Nat) : (s.memRead a n).length = n := by simp [State.memRead]

theorem memRead_getElem (s : State) (a n k : Nat) (hk : k < (s.memRead a n).length) :
    (s.memRead a n)[k] = s.readByte (a + k) := by simp [State.memRead]

/-- A block written in place is only a change of MEM. -/
theorem memWrite_eq (s : State) (a : Nat) (bs : List Byte) :
    s.memWrite a bs = { s with mem := (s.memWrite a bs).mem } := by
  induction bs generalizing s a with
  | nil => rfl
  | cons b bs ih => rw [State.memWrite, ih]; rfl

end Sys2Proof.Machine
end

