-- ==== Sys2Proof/Laws/Ops.lean ====
section
/-! SUPPORT. What each shared operation can do, said once: the stack operations, the register block, the key edge, and
the step by run state and by transaction. -/

namespace Sys2Proof.Machine

/-! ### The stack -/

/-- A push with a free entry. -/
theorem push_of_lt {s : State} {w : Word} (h : s.sp.toNat < 16) :
    s.push w = some { s with stack := s.stack.set s.sp.toNat w h, sp := s.sp + 1 } := by
  have e : s.stack.setIfInBounds s.sp.toNat w = s.stack.set s.sp.toNat w h := by
    ext k hk
    rw [Vector.getElem_setIfInBounds, Vector.getElem_set]
  simp only [State.push, if_pos h, e]

/-- What a push that succeeds does. -/
theorem push_eq_some {s t : State} {w : Word} (h : s.push w = some t) :
    ∃ h : s.sp.toNat < 16, t = { s with stack := s.stack.set s.sp.toNat w h, sp := s.sp + 1 } := by
  by_cases hlt : s.sp.toNat < 16
  · rw [push_of_lt hlt] at h
    exact ⟨hlt, (Option.some.inj h).symm⟩
  · simp [State.push, hlt] at h

theorem sp_sub_one {s : State} (h : 0 < s.sp.toNat) : (s.sp - 1).toNat = s.sp.toNat - 1 := by
  have := s.sp.isLt
  rw [BitVec.toNat_sub]
  simp only [BitVec.ofNat_eq_ofNat, BitVec.toNat_ofNat]
  omega

/-- A pop from a stack of legal depth. -/
theorem pop_of_lt {s : State} (h0 : 0 < s.sp.toNat) (h : s.sp.toNat - 1 < 16) :
    s.pop = some (s.stack[s.sp.toNat - 1], { s with sp := s.sp - 1 }) := by
  simp only [State.pop, sp_sub_one h0, Vector.getElem?_eq_getElem h]

/-- What a pop that succeeds does. -/
theorem pop_eq_some {s t : State} {w : Word} (h : s.pop = some (w, t)) :
    s.stack[(s.sp - 1).toNat]? = some w ∧ t = { s with sp := s.sp - 1 } := by
  unfold State.pop at h
  split at h
  · simp only [Option.some.injEq, Prod.mk.injEq] at h
    obtain ⟨rfl, rfl⟩ := h
    exact ⟨by assumption, rfl⟩
  · simp at h

/-! ### The register block of Fx65 -/

/-- Loading a list of bytes into the registers from `k` on writes exactly these registers. -/
theorem reg_setRegsFrom {s : State} {k : Nat} {bs : List Byte} (h : k + bs.length ≤ 16) (r : Reg) :
    (s.setRegsFrom k bs).reg r =
      if h : k ≤ r.val ∧ r.val - k < bs.length then bs[r.val - k]'h.2 else s.reg r := by
  induction bs generalizing s k with
  | nil => simp [State.setRegsFrom]
  | cons b bs ih =>
    simp only [List.length_cons] at h
    rw [State.setRegsFrom, ih (by omega), reg_setReg]
    have hk : (Fin.ofNat 16 k).val = k := by simp only [Fin.val_ofNat]; omega
    by_cases h1 : r.val = k
    · have e : Fin.ofNat 16 k = r := Fin.ext (by rw [hk, h1])
      rw [dif_neg (by omega), if_pos e, dif_pos (by simp only [List.length_cons]; omega)]
      simp [h1]
    · have e : Fin.ofNat 16 k ≠ r := fun e => h1 (by rw [← e, hk])
      rw [if_neg e]
      by_cases h2 : k + 1 ≤ r.val ∧ r.val - (k + 1) < bs.length
      · have h4 : r.val - k = (r.val - (k + 1)) + 1 := by omega
        rw [dif_pos h2, dif_pos (by simp only [List.length_cons]; omega)]
        simp [h4]
      · rw [dif_neg h2, dif_neg (by simp only [List.length_cons]; omega)]

/-- Loading registers is only a change of them. -/
theorem setRegsFrom_eq (s : State) (k : Nat) (bs : List Byte) :
    s.setRegsFrom k bs = { s with v := (s.setRegsFrom k bs).v } := by
  induction bs generalizing s k with
  | nil => rfl
  | cons b bs ih => rw [State.setRegsFrom, ih]; rfl

theorem regBlock_length (s : State) (x : Reg) : (s.regBlock x).length = x.val + 1 := by
  have := x.isLt
  simp only [State.regBlock, List.length_take, Vector.length_toList]
  omega

theorem regBlock_getElem (s : State) (x : Reg) (k : Nat) (hk : k < (s.regBlock x).length) :
    (s.regBlock x)[k] = s.reg ⟨k, by have := regBlock_length s x; have := x.isLt; omega⟩ := by
  simp [State.regBlock, State.reg]

/-! ### The key edge (R215) -/

/-- No edge: every key pressed now was pressed at the last attempt. -/
theorem pressEdge_eq_none {s : State} :
    s.pressEdge = none ↔ ∀ k : Fin 16, ¬(s.keys.getLsbD k = true ∧ s.base.getLsbD k = false) := by
  simp [State.pressEdge, List.find?_eq_none]

/-- The edge taken is the lowest-numbered one. -/
theorem pressEdge_eq_some {s : State} {k : Reg} :
    s.pressEdge = some k ↔ s.keys.getLsbD k = true ∧ s.base.getLsbD k = false ∧
      ∀ j : Fin 16, j < k → ¬(s.keys.getLsbD j = true ∧ s.base.getLsbD j = false) := by
  have noEdge : ∀ a b : Bool, (a = false ∨ b = true) ↔ ¬(a = true ∧ b = false) := by decide
  unfold State.pressEdge
  rw [List.find?_eq_some_iff_getElem]
  simp only [Bool.and_eq_true, Bool.not_eq_true', List.getElem_finRange, List.length_finRange, Bool.not_and,
    Bool.or_eq_true, Bool.not_not, noEdge]
  constructor
  · rintro ⟨hk, i, hi, rfl, hj⟩
    exact ⟨hk.1, hk.2, fun j hjk => hj j.val hjk⟩
  · rintro ⟨h1, h2, h3⟩
    exact ⟨⟨h1, h2⟩, k.val, k.isLt, rfl, fun j hj => h3 ⟨j, by omega⟩ hj⟩

/-! ### STEP by run state, and one step by transaction -/

theorem stepWith_faulted {s : State} {rand : Option Byte} (h : s.run = .faulted) : s.stepWith rand = .next s := by
  simp [State.stepWith, h]

theorem stepWith_waiting {s : State} {rand : Option Byte} {r : Reg} (h : s.run = .waiting r) :
    s.stepWith rand = .next (s.waitRetry r) := by
  simp [State.stepWith, h]

theorem stepWith_running {s : State} {rand : Option Byte} (h : s.run = .running) :
    s.stepWith rand = State.fetchExecute { s with rand := rand } := by
  simp [State.stepWith, h]

theorem fetchExecute_ok {s : State} {i : Instr} (h : decode s.fetchWord = .ok i) : s.fetchExecute = exec i s := by
  simp [State.fetchExecute, h]

theorem fetchExecute_error {s : State} {e : DecodeError} (h : decode s.fetchWord = .error e) :
    s.fetchExecute = .next (s.raise .unknownOpcode s.fetchWord) := by
  simp [State.fetchExecute, h]

theorem step_nil {s : State} (h : s.schedule = []) : step s = s.stepWith none := by
  simp [step, State.nextTransaction, h]

theorem step_cons {s : State} {t : Transaction} {rest : List Transaction} (h : s.schedule = t :: rest) :
    step s = State.transact { s with schedule := rest } t := by
  simp [step, State.nextTransaction, h]

end Sys2Proof.Machine
end

