-- ==== Sys2Proof/Laws/Exec.lean ====
section
/-! SUPPORT. What `exec` can do, said once: the two instructions that may report an error or stop, and the fields that
matter to the invariant for every other one. -/

namespace Sys2Proof.Machine

/-- Every next state of RET. -/
theorem execRet_next {s t : State} (h : execRet s = .next t) :
    (s.sp = 0 ∧ t = s.raise .stackUnderflow (encode .ret)) ∨
      ∃ w, s.stack[(s.sp - 1).toNat]? = some w ∧ s.sp ≠ 0 ∧ t = { s with sp := s.sp - 1, pc := w } := by
  unfold execRet at h
  split at h
  · cases h
    exact .inl ⟨by assumption, rfl⟩
  · split at h
    · rename_i hp
      obtain ⟨hw, rfl⟩ := pop_eq_some hp
      cases h
      exact .inr ⟨_, hw, by assumption, rfl⟩
    · cases h

/-- Every next state of CALL. -/
theorem execCall_next {s t : State} {nnn : Addr12} (h : execCall nnn s = .next t) :
    (s.sp = 16 ∧ t = s.raise .stackOverflow (encode (.call nnn))) ∨
      ∃ h : s.sp.toNat < 16, t =
        { s with stack := s.stack.set s.sp.toNat (s.pc + 2) h, sp := s.sp + 1, pc := zext12 nnn } := by
  unfold execCall at h
  split at h
  · cases h
    exact .inl ⟨by assumption, rfl⟩
  · split at h
    · rename_i hp
      obtain ⟨hlt, rfl⟩ := push_eq_some hp
      cases h
      exact .inr ⟨hlt, rfl⟩
    · cases h

/-- Every other instruction leaves SP, ERR and the parameters, at most starts a wait, and writes I and MEM through their
one write operation. -/
theorem exec_next_plain {i : Instr} {s t : State} (h : exec i s = .next t) (hr : i ≠ .ret)
    (hc : ∀ nnn, i ≠ .call nnn) :
    t.sp = s.sp ∧ t.err = s.err ∧ t.cfg = s.cfg ∧ (t.run = s.run ∨ ∃ x, t.run = .waiting x) ∧
      (t.i = s.i ∨ ∃ n, t.i = maskIndex s.cfg.iWidth n) ∧ (t.mem = s.mem ∨ ∃ a bs, t.mem = (s.memWrite a bs).mem) := by
  cases i
  case ret => exact absurd rfl hr
  case call => exact absurd rfl (hc _)
  case addIVx => cases h; simp; split <;> simp
  case ldBVx => cases h; simp; exact .inr ⟨_, _, rfl⟩
  case storeRegs => cases h; simp; exact .inr ⟨_, _, rfl⟩
  all_goals (cases h; simp)

theorem zext12_eq (nnn : Addr12) : zext12 nnn = BitVec.ofNat 16 nnn.toNat := by
  apply BitVec.eq_of_toNat_eq
  simp [zext12]

/-- With `I_WIDTH = 12` a write of I keeps 12 bits. -/
theorem maskIndex_w12_lt (n : Nat) : (maskIndex .w12 n).toNat < 4096 := by
  simp only [maskIndex, BitVec.toNat_ofNat]
  omega

end Sys2Proof.Machine
end

