-- ==== Sys2Proof/Laws/PerInstr.lean ====
section
/-! SUPPORT. Statements for every instruction as syntax, one lemma a constructor. -/

/-! ### EncodedRow: the encoder's word matches the instruction's row of the opcode table (R90), and the row is listed -/

/-- The word of an instruction matches its own row, and the table lists that row. -/
def Sys2Proof.Laws.EncodedRow.Statement (i : Sys2Proof.Instr) : Prop :=
  Sys2Proof.encode i &&& i.row.mask = i.row.value ∧ i.row ∈ Sys2Proof.opcodeTable

namespace Sys2Proof.Laws.EncodedRow

open Sys2Proof

/-- The two halves of the statement. -/
theorem of_and_eq {i : Instr} (h : encode i &&& i.row.mask = i.row.value) (hr : i.row ∈ opcodeTable) : Statement i :=
  ⟨h, hr⟩

theorem encodeA_row (c : BitVec 4) (nnn : Addr12) : encodeA c nnn &&& 0xF000 = encodeA c 0 := by
  apply BitVec.eq_of_toNat_eq
  rw [and_F000, encodeA_toNat, encodeA_toNat]
  have := nnn.isLt
  simp only [BitVec.toNat_zero, BitVec.ofNat_eq_ofNat]
  omega

theorem encodeK_row (c : BitVec 4) (x : Reg) (kk : Byte) : encodeK c x kk &&& 0xF000 = encodeK c 0 0 := by
  apply BitVec.eq_of_toNat_eq
  rw [and_F000, encodeK_toNat, encodeK_toNat]
  have := kk.isLt
  simp only [BitVec.toNat_zero, BitVec.ofNat_eq_ofNat, Fin.val_zero]
  omega

theorem encodeK_byteRow (c : BitVec 4) (x : Reg) (kk : Byte) : encodeK c x kk &&& 0xF0FF = encodeK c 0 kk := by
  apply BitVec.eq_of_toNat_eq
  rw [and_F0FF, encodeK_toNat, encodeK_toNat]
  have := kk.isLt
  simp only [Fin.val_zero]
  omega

theorem encodeR_row (c : BitVec 4) (x y : Reg) (n : BitVec 4) : encodeR c x y n &&& 0xF00F = encodeR c 0 0 n := by
  apply BitVec.eq_of_toNat_eq
  rw [and_F00F, encodeR_toNat, encodeR_toNat]
  have := n.isLt
  simp only [Fin.val_zero]
  omega

theorem encodeR_countRow (c : BitVec 4) (x y : Reg) (n : BitVec 4) : encodeR c x y n &&& 0xF000 = encodeR c 0 0 0 := by
  apply BitVec.eq_of_toNat_eq
  rw [and_F000, encodeR_toNat, encodeR_toNat]
  have := n.isLt
  simp only [BitVec.toNat_zero, BitVec.ofNat_eq_ofNat, Fin.val_zero]
  omega

theorem cls : Statement .cls := of_and_eq (by decide) (by decide)
theorem ret : Statement .ret := of_and_eq (by decide) (by decide)
theorem jp (nnn : Addr12) : Statement (.jp nnn) := of_and_eq (encodeA_row _ _) (by simp [Instr.row, opcodeTable])
theorem call (nnn : Addr12) : Statement (.call nnn) := of_and_eq (encodeA_row _ _) (by simp [Instr.row, opcodeTable])
theorem seImm (x : Reg) (kk : Byte) : Statement (.seImm x kk) := of_and_eq (encodeK_row _ _ _) (by simp [Instr.row, opcodeTable])
theorem sneImm (x : Reg) (kk : Byte) : Statement (.sneImm x kk) := of_and_eq (encodeK_row _ _ _) (by simp [Instr.row, opcodeTable])
theorem seReg (x : Reg) (y : Reg) : Statement (.seReg x y) := of_and_eq (encodeR_row _ _ _ _) (by simp [Instr.row, opcodeTable])
theorem ldImm (x : Reg) (kk : Byte) : Statement (.ldImm x kk) := of_and_eq (encodeK_row _ _ _) (by simp [Instr.row, opcodeTable])
theorem addImm (x : Reg) (kk : Byte) : Statement (.addImm x kk) := of_and_eq (encodeK_row _ _ _) (by simp [Instr.row, opcodeTable])
theorem ldReg (x : Reg) (y : Reg) : Statement (.ldReg x y) := of_and_eq (encodeR_row _ _ _ _) (by simp [Instr.row, opcodeTable])
theorem orReg (x : Reg) (y : Reg) : Statement (.orReg x y) := of_and_eq (encodeR_row _ _ _ _) (by simp [Instr.row, opcodeTable])
theorem andReg (x : Reg) (y : Reg) : Statement (.andReg x y) := of_and_eq (encodeR_row _ _ _ _) (by simp [Instr.row, opcodeTable])
theorem xorReg (x : Reg) (y : Reg) : Statement (.xorReg x y) := of_and_eq (encodeR_row _ _ _ _) (by simp [Instr.row, opcodeTable])
theorem addReg (x : Reg) (y : Reg) : Statement (.addReg x y) := of_and_eq (encodeR_row _ _ _ _) (by simp [Instr.row, opcodeTable])
theorem subReg (x : Reg) (y : Reg) : Statement (.subReg x y) := of_and_eq (encodeR_row _ _ _ _) (by simp [Instr.row, opcodeTable])
theorem shr (x : Reg) (y : Reg) : Statement (.shr x y) := of_and_eq (encodeR_row _ _ _ _) (by simp [Instr.row, opcodeTable])
theorem subnReg (x : Reg) (y : Reg) : Statement (.subnReg x y) := of_and_eq (encodeR_row _ _ _ _) (by simp [Instr.row, opcodeTable])
theorem shl (x : Reg) (y : Reg) : Statement (.shl x y) := of_and_eq (encodeR_row _ _ _ _) (by simp [Instr.row, opcodeTable])
theorem sneReg (x : Reg) (y : Reg) : Statement (.sneReg x y) := of_and_eq (encodeR_row _ _ _ _) (by simp [Instr.row, opcodeTable])
theorem ldI (nnn : Addr12) : Statement (.ldI nnn) := of_and_eq (encodeA_row _ _) (by simp [Instr.row, opcodeTable])
theorem jpV0 (nnn : Addr12) : Statement (.jpV0 nnn) := of_and_eq (encodeA_row _ _) (by simp [Instr.row, opcodeTable])
theorem rnd (x : Reg) (kk : Byte) : Statement (.rnd x kk) := of_and_eq (encodeK_row _ _ _) (by simp [Instr.row, opcodeTable])
theorem drw (x : Reg) (y : Reg) (n : Nat) : Statement (.drw x y n) := of_and_eq (encodeR_countRow _ _ _ _) (by simp [Instr.row, opcodeTable])
theorem skp (x : Reg) : Statement (.skp x) := of_and_eq (encodeK_byteRow _ _ _) (by simp [Instr.row, opcodeTable])
theorem sknp (x : Reg) : Statement (.sknp x) := of_and_eq (encodeK_byteRow _ _ _) (by simp [Instr.row, opcodeTable])
theorem ldVxDt (x : Reg) : Statement (.ldVxDt x) := of_and_eq (encodeK_byteRow _ _ _) (by simp [Instr.row, opcodeTable])
theorem ldVxK (x : Reg) : Statement (.ldVxK x) := of_and_eq (encodeK_byteRow _ _ _) (by simp [Instr.row, opcodeTable])
theorem ldDtVx (x : Reg) : Statement (.ldDtVx x) := of_and_eq (encodeK_byteRow _ _ _) (by simp [Instr.row, opcodeTable])
theorem ldStVx (x : Reg) : Statement (.ldStVx x) := of_and_eq (encodeK_byteRow _ _ _) (by simp [Instr.row, opcodeTable])
theorem addIVx (x : Reg) : Statement (.addIVx x) := of_and_eq (encodeK_byteRow _ _ _) (by simp [Instr.row, opcodeTable])
theorem ldFVx (x : Reg) : Statement (.ldFVx x) := of_and_eq (encodeK_byteRow _ _ _) (by simp [Instr.row, opcodeTable])
theorem ldBVx (x : Reg) : Statement (.ldBVx x) := of_and_eq (encodeK_byteRow _ _ _) (by simp [Instr.row, opcodeTable])
theorem storeRegs (x : Reg) : Statement (.storeRegs x) := of_and_eq (encodeK_byteRow _ _ _) (by simp [Instr.row, opcodeTable])
theorem loadRegs (x : Reg) : Statement (.loadRegs x) := of_and_eq (encodeK_byteRow _ _ _) (by simp [Instr.row, opcodeTable])

end Sys2Proof.Laws.EncodedRow
end

