-- ==== Sys2Proof/Tests/Slice0.lean ====
section
/-! SUPPORT. Tests of the model. Expected values come from the spec: the encodings of 30_encoding.md R83 and R90 written
out bit by bit, and the vectors of 95_test_vectors.md (named in each docstring); the witnesses show states and operands
that meet the hypotheses of the statements. -/

open Sys2Proof Sys2Proof.Machine

namespace Sys2Proof.Tests

/-! ## Helpers -/

/-- The answer is a next state with this property. -/
def after (r : Result) (f : State → Bool) : Bool :=
  match r with
  | .next t => f t
  | .fault _ => false
  | .refused _ => false

/-- The answer is the fault of an illegal stack pointer. -/
def stops (r : Result) : Bool :=
  match r with
  | .next _ => false
  | .fault .stackPointerIllegal => true
  | .refused _ => false

/-- The state after reset with some registers set. -/
def regs (l : List (Reg × Byte)) : State := l.foldl (fun s p => s.setReg p.1 p.2) State.reset

/-- One STEP that fetches the word `w` in `s`. -/
def stepWord (w : Nat) (s : State) (f : State → Bool) : Bool := after (step (s.withFetchWord 16 w)) f

/-- The state after reset with the given parameters and registers. -/
def withCfg (cfg : Config) (l : List (Reg × Byte)) : State := { regs l with cfg := cfg }

/-- One bit of sprite 0xC0 at 0x300 and I pointing at it (S5, DSP1). -/
def sprite : State := { (regs []).memWrite 0x300 [0xC0] with i := 0x300 }

/-! ## Well-formedness: the ill-formed term of the one check is refused -/

theorem test_wellFormed_refuses_row_count_16 : (Instr.drw 0 1 16).wellFormed = false := by decide

theorem test_wellFormed_accepts_row_count_15 : (Instr.drw 0 1 15).wellFormed = true := by decide

/-! ## Decoding: one word an instruction, written out from its row of R90 -/

theorem test_decode_cls : decode 0b0000000011100000#16 = .ok .cls := by decide
theorem test_decode_ret : decode 0b0000000011101110#16 = .ok .ret := by decide
theorem test_decode_jp : decode 0b0001101001110001#16 = .ok (.jp 0xA71) := by decide
theorem test_decode_call : decode 0b0010110011010110#16 = .ok (.call 0xCD6) := by decide
theorem test_decode_seImm : decode 0b0011011111011111#16 = .ok (.seImm 7 0xDF) := by decide
theorem test_decode_sneImm : decode 0b0100110000000100#16 = .ok (.sneImm 12 0x04) := by decide
theorem test_decode_seReg : decode 0b0101000100000000#16 = .ok (.seReg 1 0) := by decide
theorem test_decode_ldImm : decode 0b0110011001001110#16 = .ok (.ldImm 6 0x4E) := by decide
theorem test_decode_addImm : decode 0b0111101101110011#16 = .ok (.addImm 11 0x73) := by decide
theorem test_decode_ldReg : decode 0b1000000001010000#16 = .ok (.ldReg 0 5) := by decide
theorem test_decode_orReg : decode 0b1000010111000001#16 = .ok (.orReg 5 12) := by decide
theorem test_decode_andReg : decode 0b1000101000110010#16 = .ok (.andReg 10 3) := by decide
theorem test_decode_xorReg : decode 0b1000111110100011#16 = .ok (.xorReg 15 10) := by decide
theorem test_decode_addReg : decode 0b1000010000010100#16 = .ok (.addReg 4 1) := by decide
theorem test_decode_subReg : decode 0b1000100110000101#16 = .ok (.subReg 9 8) := by decide
theorem test_decode_shr : decode 0b1000111011110110#16 = .ok (.shr 14 15) := by decide
theorem test_decode_subnReg : decode 0b1000001101100111#16 = .ok (.subnReg 3 6) := by decide
theorem test_decode_shl : decode 0b1000100011011110#16 = .ok (.shl 8 13) := by decide
theorem test_decode_sneReg : decode 0b1001110101000000#16 = .ok (.sneReg 13 4) := by decide
theorem test_decode_ldI : decode 0b1010001100100110#16 = .ok (.ldI 0x326) := by decide
theorem test_decode_jpV0 : decode 0b1011010110001011#16 = .ok (.jpV0 0x58B) := by decide
theorem test_decode_rnd : decode 0b1100110001010100#16 = .ok (.rnd 12 0x54) := by decide
theorem test_decode_drw : decode 0b1101000100000111#16 = .ok (.drw 1 0 7) := by decide
theorem test_decode_skp : decode 0b1110011010011110#16 = .ok (.skp 6) := by decide
theorem test_decode_sknp : decode 0b1110101110100001#16 = .ok (.sknp 11) := by decide
theorem test_decode_ldVxDt : decode 0b1111000000000111#16 = .ok (.ldVxDt 0) := by decide
theorem test_decode_ldVxK : decode 0b1111010100001010#16 = .ok (.ldVxK 5) := by decide
theorem test_decode_ldDtVx : decode 0b1111101000010101#16 = .ok (.ldDtVx 10) := by decide
theorem test_decode_ldStVx : decode 0b1111111100011000#16 = .ok (.ldStVx 15) := by decide
theorem test_decode_addIVx : decode 0b1111010000011110#16 = .ok (.addIVx 4) := by decide
theorem test_decode_ldFVx : decode 0b1111100100101001#16 = .ok (.ldFVx 9) := by decide
theorem test_decode_ldBVx : decode 0b1111111000110011#16 = .ok (.ldBVx 14) := by decide
theorem test_decode_storeRegs : decode 0b1111001101010101#16 = .ok (.storeRegs 3) := by decide
theorem test_decode_loadRegs : decode 0b1111100001100101#16 = .ok (.loadRegs 8) := by decide

/-- ERR1 to ERR8. -/
theorem test_decode_refuses_unknown :
    [0x0000, 0x0123, 0x00E1, 0x5121, 0x8128, 0x812F, 0x9121, 0xE09F, 0xE0A2, 0xE000, 0xF000, 0xF0FF, 0xF075,
      0xF085].all (fun w => decodeTableWord 16 w == none) = true := by decide

/-- ERR9: the `y` field of SHR is not used. -/
theorem test_decode_shr_any_y : decodeTableWord 16 0x8126 = some (.shr 1 2) := by decide

theorem test_decodeBytes_big_endian : decodeBytes [0x22, 0x0A, 0x70] = .ok (.call 0x20A, [0x70]) := by decide

theorem test_decodeBytes_truncated : decodeBytes [0x22] = .error .truncated := by decide

/-! ## Register loads and the ALU (95_test_vectors.md 2.1) -/

/-- ALU1. -/
theorem test_ldImm : stepWord 0x63AB (regs []) (fun t => t.reg 3 == 0xAB && t.pc == 0x202) = true := by decide

/-- ALU2: no flag. -/
theorem test_addImm_wraps :
    stepWord 0x7201 (regs [(2, 0xFF), (15, 0x55)]) (fun t => t.reg 2 == 0 && t.reg 15 == 0x55) = true := by decide

/-- ALU5. -/
theorem test_ldReg : stepWord 0x8010 (regs [(1, 0x12)]) (fun t => t.reg 0 == 0x12) = true := by decide

/-- ALU6. -/
theorem test_orReg :
    stepWord 0x8011 (regs [(0, 0xF0), (1, 0x0F), (15, 1)]) (fun t => t.reg 0 == 0xFF && t.reg 15 == 1) = true := by decide

/-- ALU7. -/
theorem test_andReg : stepWord 0x8012 (regs [(0, 0xF0), (1, 0x3C)]) (fun t => t.reg 0 == 0x30) = true := by decide

/-- ALU8. -/
theorem test_xorReg : stepWord 0x8013 (regs [(0, 0x10), (1, 0x16)]) (fun t => t.reg 0 == 0x06) = true := by decide

/-- S1. -/
theorem test_addReg_carry :
    stepWord 0x8014 (regs [(0, 0xFF), (1, 1)]) (fun t => t.reg 0 == 0 && t.reg 15 == 1) = true := by decide

/-- ALU14: both orders of the writes when VF is the destination. -/
theorem test_addReg_into_vf :
    (stepWord 0x8F14 (regs [(15, 0xFF), (1, 1)]) (fun t => t.reg 15 == 1) &&
      stepWord 0x8F14 (withCfg { vfLast := false } [(15, 0xFF), (1, 1)]) (fun t => t.reg 15 == 0)) = true := by decide

/-- S2. -/
theorem test_subReg_borrow :
    stepWord 0x8015 (regs [(0, 5), (1, 0xA)]) (fun t => t.reg 0 == 0xFB && t.reg 15 == 0) = true := by decide

/-- ALU17: the comparison is strict. -/
theorem test_subReg_equal :
    stepWord 0x8015 (regs [(0, 7), (1, 7), (15, 9)]) (fun t => t.reg 0 == 0 && t.reg 15 == 0) = true := by decide

/-- ALU21. -/
theorem test_shr : stepWord 0x8106 (regs [(1, 5)]) (fun t => t.reg 1 == 2 && t.reg 15 == 1) = true := by decide

/-- ALU23: the source is Vx. -/
theorem test_shr_ignores_y :
    stepWord 0x8126 (regs [(1, 1), (2, 0xF0)]) (fun t => t.reg 1 == 0 && t.reg 15 == 1) = true := by decide

/-- ALU25. -/
theorem test_subnReg : stepWord 0x8017 (regs [(0, 5), (1, 0xA)]) (fun t => t.reg 0 == 5 && t.reg 15 == 1) = true := by decide

/-- ALU28: both orders. -/
theorem test_subnReg_into_vf :
    (stepWord 0x8F17 (regs [(15, 0x10), (1, 1)]) (fun t => t.reg 15 == 0) &&
      stepWord 0x8F17 (withCfg { vfLast := false } [(15, 0x10), (1, 1)]) (fun t => t.reg 15 == 0xF1)) = true := by decide

/-- ALU29. -/
theorem test_shl : stepWord 0x810E (regs [(1, 0x81)]) (fun t => t.reg 1 == 2 && t.reg 15 == 1) = true := by decide

/-- ALU33: the draw comes with the STEP. -/
theorem test_rnd :
    after (step { (regs []).withFetchWord 16 0xC30F with schedule := [.step 0xA5] })
      (fun t => t.reg 3 == 5 && t.draws == 0 && t.schedule == []) = true := by decide

/-! ## Control flow (2.2) -/

/-- CF1. -/
theorem test_jp : stepWord 0x1234 (regs []) (fun t => t.pc == 0x234) = true := by decide

/-- CF3. -/
theorem test_call :
    stepWord 0x220A { regs [] with pc := 0x204 } (fun t => t.stack[0] == 0x206 && t.sp == 1 && t.pc == 0x20A) = true := by
  decide

/-- CF4. -/
theorem test_call_overflow :
    stepWord 0x2400 { regs [] with pc := 0x300, sp := 16 }
      (fun t => t.pc == 0x300 && t.sp == 16 && t.run == .faulted && t.err == ⟨.stackOverflow, 0x300, 0x2400⟩) = true := by
  decide

/-- CF5. -/
theorem test_ret :
    stepWord 0x00EE { regs [] with pc := 0x20C, sp := 1, stack := (regs []).stack.set 0 0x206 }
      (fun t => t.pc == 0x206 && t.sp == 0 && t.stack[0] == 0x206) = true := by decide

/-- CF6. -/
theorem test_ret_underflow :
    stepWord 0x00EE (regs []) (fun t => t.pc == 0x200 && t.err == ⟨.stackUnderflow, 0x200, 0x00EE⟩) = true := by decide

/-- CF10: the sum keeps 16 bits. -/
theorem test_jpV0 : stepWord 0xBFFF (regs [(0, 0xFF)]) (fun t => t.pc == 0x10FE) = true := by decide

/-- CF12, CF13. -/
theorem test_seImm :
    (stepWord 0x3010 (regs [(0, 0x10)]) (fun t => t.pc == 0x204) &&
      stepWord 0x3011 (regs [(0, 0x10)]) (fun t => t.pc == 0x202)) = true := by decide

/-- CF14, CF15. -/
theorem test_sneImm :
    (stepWord 0x4011 (regs [(0, 0x10)]) (fun t => t.pc == 0x204) &&
      stepWord 0x4010 (regs [(0, 0x10)]) (fun t => t.pc == 0x202)) = true := by decide

/-- CF16. -/
theorem test_seReg : stepWord 0x5120 (regs [(1, 0x33), (2, 0x33)]) (fun t => t.pc == 0x204) = true := by decide

/-- CF18. -/
theorem test_sneReg : stepWord 0x9120 (regs [(1, 0x33), (2, 0x34)]) (fun t => t.pc == 0x204) = true := by decide

/-- CF20: a skip wraps modulo 2^16. -/
theorem test_skip_wraps : stepWord 0x3000 { regs [] with pc := 0xFFFC } (fun t => t.pc == 0) = true := by decide

/-- CF22: the low byte of a word at 0x0FFF is at 0x000. -/
theorem test_fetch_wraps :
    after (step { (regs []).writeByte 0xFFF 0x61 with pc := 0xFFF }) (fun t => t.reg 1 == 0xF0 && t.pc == 0x1001) = true := by
  decide

/-! ## Index and memory (2.3) -/

/-- IM1. -/
theorem test_ldI : stepWord 0xA123 (regs []) (fun t => t.i == 0x123) = true := by decide

/-- IM3, both widths and both flag options. -/
theorem test_addIVx :
    (stepWord 0xF01E { regs [(0, 1), (15, 7)] with i := 0xFFF } (fun t => t.i == 0x1000 && t.reg 15 == 7) &&
      stepWord 0xF01E { withCfg { iWidth := .w12, fx1eSetsVf := true } [(0, 1)] with i := 0xFFF }
        (fun t => t.i == 0 && t.reg 15 == 1)) = true := by decide

/-- IM7, both modes. -/
theorem test_ldFVx :
    (stepWord 0xF029 (regs [(0, 0x1A)]) (fun t => t.i == 0x32) &&
      stepWord 0xF029 (withCfg { fontDigitMode := .full } [(0, 0x1A)]) (fun t => t.i == 0x82)) = true := by decide

/-- IM11: the store wraps at the end of memory. -/
theorem test_ldBVx :
    stepWord 0xF033 { regs [(0, 0x7B)] with i := 0xFFF }
      (fun t => t.readByte 0xFFF == 1 && t.readByte 0 == 2 && t.readByte 1 == 3 && t.i == 0xFFF) = true := by decide

/-- IM12. -/
theorem test_storeRegs :
    stepWord 0xF255 { regs [(0, 1), (1, 2), (2, 3), (3, 4)] with i := 0x300 }
      (fun t => t.memRead 0x300 4 == [1, 2, 3, 0] && t.i == 0x300) = true := by decide

/-- IM15. -/
theorem test_loadRegs :
    stepWord 0xF265 { (regs [(3, 9)]).memWrite 0x300 [0, 1, 5, 7] with i := 0x300 }
      (fun t => t.reg 0 == 0 && t.reg 1 == 1 && t.reg 2 == 5 && t.reg 3 == 9) = true := by decide

/-! ## Display (2.4) -/

/-- DSP10. -/
theorem test_cls :
    stepWord 0x00E0 { regs [(15, 3)] with fb := Frame.clear.toggle 5 7 }
      (fun t => t.fb == Frame.clear && t.reg 15 == 3 && t.pc == 0x202) = true := by decide

/-- DSP1: bit 7 is the leftmost pixel. -/
theorem test_drw : stepWord 0xD011 sprite (fun t => t.fb[0] == 0x3 && t.reg 15 == 0 && t.i == 0x300) = true := by decide

/-- DSP2 to DSP4: a collision, and the wrap at both edges. -/
theorem test_drw_collides_and_wraps :
    (stepWord 0xD011 { sprite with fb := Frame.clear.toggle 1 0 } (fun t => t.fb[0] == 0x1 && t.reg 15 == 1) &&
      stepWord 0xD011 ((sprite.setReg 0 0x3F).setReg 1 0x1F)
        (fun t => t.fb.pixel 63 31 && t.fb.pixel 0 31 && t.fb[0] == 0)) = true := by decide

/-! ## Keypad and timers (2.5) -/

/-- KT1, KT4: the low nibble, and in the mode `full` no key. -/
theorem test_skp :
    (stepWord 0xE09E { regs [(0, 0x15)] with keys := 0x20 } (fun t => t.pc == 0x204) &&
      stepWord 0xE09E { withCfg { keyIndexMode := .full } [(0, 0x15)] with keys := 0x20 } (fun t => t.pc == 0x202)) =
      true := by decide

/-- KT3. -/
theorem test_sknp : stepWord 0xE0A1 (regs [(0, 5)]) (fun t => t.pc == 0x204) = true := by decide

/-- KT6. -/
theorem test_ldVxDt : stepWord 0xF107 { regs [] with dt := 2 } (fun t => t.reg 1 == 2) = true := by decide

/-- KT7. -/
theorem test_ldDtVx : stepWord 0xF015 (regs [(0, 3)]) (fun t => t.dt == 3 && t.st == 0) = true := by decide

/-- KT8. -/
theorem test_ldStVx : stepWord 0xF318 (regs [(3, 0x1E)]) (fun t => t.st == 0x1E && t.tone && t.dt == 0) = true := by decide

/-- KT14. -/
theorem test_ldVxK :
    stepWord 0xF50A { regs [] with keys := 8 } (fun t => t.run == .waiting 5 && t.base == 8 && t.pc == 0x200) = true := by
  decide

/-- KT18: the lowest-numbered key wins. -/
theorem test_waitRetry :
    after (step { regs [] with run := .waiting 0, keys := 0x210 })
      (fun t => t.reg 0 == 4 && t.run == .running && t.base == 0x210 && t.pc == 0x202) = true := by decide

/-! ## Transactions of the host -/

/-- KT10, KT11. -/
theorem test_tick :
    after (step { regs [] with run := .faulted, dt := 2, st := 0, schedule := [.tick] })
      (fun t => t.dt == 1 && t.st == 0 && t.run == .faulted) = true := by decide

/-- ERR11 at its boundary: a block that ends at the last byte fits, one byte more is rejected whole. -/
theorem test_load :
    (after (step { regs [] with schedule := [.load 0xFFE [7, 8]] })
        (fun t => t.readByte 0xFFE == 7 && t.readByte 0xFFF == 8 && t.run == .running) &&
      after (step { regs [] with schedule := [.load 0xFFE [7, 8, 9]] })
        (fun t => t.readByte 0xFFE == 0 && t.run == .faulted && t.err == ⟨.loadOverflow, 0xFFE, 0⟩)) = true := by decide

/-- The outputs and replies: STATUS codes an error (R230), a FAULTED STEP is Halted (ERR10). -/
theorem test_status_and_replies :
    (((regs []).raise .unknownOpcode 0x5121).status == ⟨.faulted, 4, 0x200, 0x5121⟩ &&
      stepReply { regs [] with run := .faulted } (regs []) == .halted &&
      replyTo (.load 0xFFF [1, 2]) (regs []) (regs []) == .error .loadOverflow) = true := by decide

/-- S8: an unknown word leaves the registers. -/
theorem test_unknown_word :
    stepWord 0x5121 (regs [(2, 5)]) (fun t => t.reg 2 == 5 && t.pc == 0x200 && t.run == .faulted &&
      t.err == ⟨.unknownOpcode, 0x200, 0x5121⟩) = true := by decide

/-- R276: the default font, digit A. -/
theorem test_default_font : State.reset.memRead 50 5 = [0xF0, 0x90, 0xF0, 0x90, 0x90] := by decide

/-! ## Witnesses: states and operands that meet the hypotheses of the statements -/

/-- Every `Reads` clause: a word of each row. -/
theorem witness_words_match_rows :
    ([(0b0000000011100000, 0xFFFF, 0x00E0), (0b0000000011101110, 0xFFFF, 0x00EE), (0b0001101001110001, 0xF000, 0x1000), (0b0010110011010110, 0xF000, 0x2000), (0b0011011111011111, 0xF000, 0x3000), (0b0100110000000100, 0xF000, 0x4000), (0b0101000100000000, 0xF00F, 0x5000), (0b0110011001001110, 0xF000, 0x6000), (0b0111101101110011, 0xF000, 0x7000)] ++
    [(0b1000000001010000, 0xF00F, 0x8000), (0b1000010111000001, 0xF00F, 0x8001), (0b1000101000110010, 0xF00F, 0x8002), (0b1000111110100011, 0xF00F, 0x8003), (0b1000010000010100, 0xF00F, 0x8004), (0b1000100110000101, 0xF00F, 0x8005), (0b1000111011110110, 0xF00F, 0x8006), (0b1000001101100111, 0xF00F, 0x8007), (0b1000100011011110, 0xF00F, 0x800E)] ++
    [(0b1001110101000000, 0xF00F, 0x9000), (0b1010001100100110, 0xF000, 0xA000), (0b1011010110001011, 0xF000, 0xB000), (0b1100110001010100, 0xF000, 0xC000), (0b1101000100000111, 0xF000, 0xD000), (0b1110011010011110, 0xF0FF, 0xE09E), (0b1110101110100001, 0xF0FF, 0xE0A1), (0b1111000000000111, 0xF0FF, 0xF007), (0b1111010100001010, 0xF0FF, 0xF00A)] ++
    [(0b1111101000010101, 0xF0FF, 0xF015), (0b1111111100011000, 0xF0FF, 0xF018), (0b1111010000011110, 0xF0FF, 0xF01E), (0b1111100100101001, 0xF0FF, 0xF029), (0b1111111000110011, 0xF0FF, 0xF033), (0b1111001101010101, 0xF0FF, 0xF055), (0b1111100001100101, 0xF0FF, 0xF065)] :
      List (Word × Word × Word)).all (fun p => p.1 &&& p.2.1 == p.2.2) = true := by decide

/-- DecodeInvertsEncode, at the boundary of the one check. -/
theorem witness_DecodeInvertsEncode : (Instr.drw 15 0 15).wellFormed = true := by decide

theorem witness_EncodeInvertsDecode : decode 0x8126 = .ok (.shr 1 2) := by decide

theorem witness_DecoderFollowsOpcodeTable :
    decode 0xF165 = .ok (.loadRegs 1) ∧
      (⟨0xF065, 0xF0FF⟩ : OpcodeRow) ∈ opcodeTable ∧ (0xF165 : Word) &&& 0xF0FF = 0xF065 := by decide

theorem witness_RandomWritesMaskedDraw : { State.reset with rand := some 0xA5 }.rand = some 0xA5 := rfl

theorem witness_FreeDrawIsUsedOnce : State.reset.rand = none := rfl

theorem witness_DrawReachesOnlyRandom : (∀ x kk, Instr.ldImm 1 2 ≠ .rnd x kk) ∧ ∃ t, exec (.ldImm 1 2) State.reset = .next t :=
  ⟨(by intro x kk h; cases h), _, rfl⟩

/-- The clauses of CALL at both ends of their ranges. -/
theorem witness_CallPushesOrOverflows :
    State.reset.sp.toNat < 16 ∧ { State.reset with sp := 15 }.sp.toNat < 16 ∧ { State.reset with sp := 16 }.sp = 16 ∧
      (0x2FFF : Word) &&& 0xF000 = 0x2000 := by decide

/-- The clauses of RET at both ends of their ranges. -/
theorem witness_ReturnPopsOrUnderflows :
    (0 < { State.reset with sp := 1 }.sp.toNat ∧ { State.reset with sp := 1 }.sp.toNat - 1 < 16) ∧
      (0 < { State.reset with sp := 16 }.sp.toNat ∧ { State.reset with sp := 16 }.sp.toNat - 1 < 16) ∧
      State.reset.sp = 0 := by decide

theorem witness_IllegalStackPointerStops :
    16 < { State.reset with sp := 17 }.sp.toNat ∧ 16 < { State.reset with sp := 255 }.sp.toNat ∧
      stops (exec .ret { State.reset with sp := 17 }) = true ∧
      stops (exec (.call 0x200) { State.reset with sp := 255 }) = true := by decide

theorem witness_CallThenReturnRoundTrip :
    ∃ t, { State.reset with sp := 15 }.sp.toNat < 16 ∧ exec (.call 0x300) { State.reset with sp := 15 } = .next t ∧
      t.stack = t.stack ∧ t.sp = 16 := ⟨_, by decide, rfl, rfl, rfl⟩

/-- MemLegal, for the statements about memory, in a state with a listed byte. -/
theorem witness_MemLegal : sprite.MemLegal ∧ sprite.mem = [(0x300, 0xC0)] ∧ State.reset.MemLegal := by decide

theorem witness_BlockStoreThenLoadRoundTrip :
    ∃ t, sprite.MemLegal ∧ exec (.storeRegs 15) sprite = .next t ∧ t.mem = t.mem ∧ t.cfg = t.cfg ∧ t.i = t.i :=
  ⟨_, by decide, rfl, rfl, rfl, rfl⟩

theorem witness_CanonicalMemoriesAreEqual :
    Memory.wf (fun _ => 0) [(0, 1), (4095, 2)] ∧
      ∀ a, a < 4096 → Memory.read (fun _ => 0) [(0, 1), (4095, 2)] a = Memory.read (fun _ => 0) [(0, 1), (4095, 2)] a :=
  ⟨by decide, fun _ _ => rfl⟩

theorem witness_StoredWordIsFetchedNext :
    ∃ t, { State.reset with i := 0x202 }.MemLegal ∧ 1 ≤ (1 : Reg).val ∧
      ({ State.reset with i := 0x202 }.pc.toNat + 2) % 4096 = { State.reset with i := 0x202 }.i.toNat % 4096 ∧
      exec (.storeRegs 1) { State.reset with i := 0x202 } = .next t := ⟨_, by decide, by decide, by decide, rfl⟩

/-- DrawFlipsCoveredPixels and DrawTwiceRestoresFrame: a sprite with a set bit over a dark pixel. -/
theorem witness_DrawTwiceRestoresFrame :
    ∃ t, 1 < 16 ∧ (0 : Reg) ≠ vf ∧ (1 : Reg) ≠ vf ∧ exec (.drw 0 1 1) sprite = .next t ∧ t.v[15] = 0 ∧
      SpriteCovers sprite 0 1 1 1 0 :=
  ⟨_, by decide, by decide, by decide, rfl, by decide, 0, 1, by decide⟩

/-- The second clause of FontSpriteIsAtDigitTimesFive at the last digit. -/
theorem witness_FontSpriteIsAtDigitTimesFive : (regs [(3, 15)]).v[(3 : Reg)].toNat = (15 : Fin 16).val := by decide

/-- The three clauses of the key skips at the boundary between the last two. -/
theorem witness_KeySkipsReadTheLevel :
    State.reset.cfg.keyIndexMode = .lowNibble ∧
      ((withCfg { keyIndexMode := .full } [(0, 15)]).cfg.keyIndexMode = .full ∧
        (withCfg { keyIndexMode := .full } [(0, 15)]).v[(0 : Reg)].toNat ≤ 15) ∧
      ((withCfg { keyIndexMode := .full } [(0, 16)]).cfg.keyIndexMode = .full ∧
        15 < (withCfg { keyIndexMode := .full } [(0, 16)]).v[(0 : Reg)].toNat) := by decide

theorem witness_KeyWaitSuspends : State.reset.run = .running := rfl

/-- Both clauses of KeyWaitRetries: no edge while a held key is in the baseline, and an edge on the last key only. -/
theorem witness_KeyWaitRetries :
    NextIsStep { State.reset with run := .waiting 2, keys := 8, base := 8 } none
        { State.reset with run := .waiting 2, keys := 8, base := 8 } ∧
      (∀ k : Fin 16, ¬((8 : BitVec 16).getLsbD k = true ∧ (8 : BitVec 16).getLsbD k = false)) ∧
      ((0x8000 : BitVec 16).getLsbD (15 : Fin 16) = true ∧ (0 : BitVec 16).getLsbD (15 : Fin 16) = false ∧
        ∀ j : Fin 16, j < 15 → ¬((0x8000 : BitVec 16).getLsbD j = true ∧ (0 : BitVec 16).getLsbD j = false)) ∧
      ((1 : BitVec 16).getLsbD (0 : Fin 16) = true ∧ ∀ j : Fin 16, ¬ j < 0) :=
  ⟨.inl ⟨rfl, rfl, rfl⟩, by decide, by decide, by decide⟩

/-- The frames over all instructions: a next state, and a register that LD V1 may not write. -/
theorem witness_OnlyListedRegistersChange :
    ∃ t, exec (.ldImm 1 2) State.reset = .next t ∧ mayWrite State.reset.cfg (.ldImm 1 2) 2 = false := ⟨_, rfl, rfl⟩

/-- Each clause of PcAfterEachInstruction has an instruction; the last one an error. -/
theorem witness_PcAfterEachInstruction :
    (∃ t, exec (.ldImm 1 2) State.reset = .next t ∧ plainAdvance (.ldImm 1 2) = true) ∧
      (∃ t, exec (.seImm 1 2) State.reset = .next t ∧ isSkip (.seImm 1 2) = true) ∧
      (∃ t, exec (.ldVxK 1) State.reset = .next t) ∧
      ∃ t, exec .ret State.reset = .next t ∧ State.reset.run ≠ .faulted ∧ t.run = .faulted :=
  ⟨⟨_, rfl, rfl⟩, ⟨_, rfl, rfl⟩, ⟨_, rfl⟩, _, rfl, by decide, rfl⟩

/-- Each premise of SpecialRegistersHaveNamedWriters and of OnlyStoresChangeMemory holds of LD V1. -/
theorem witness_SpecialRegistersHaveNamedWriters :
    ∃ t, exec (.ldImm 1 2) State.reset = .next t ∧ (∀ n, Instr.ldImm 1 2 ≠ .ldI n) ∧ (∀ x, Instr.ldImm 1 2 ≠ .addIVx x) ∧
      (∀ x, Instr.ldImm 1 2 ≠ .ldFVx x) ∧ (∀ n, Instr.ldImm 1 2 ≠ .call n) ∧ Instr.ldImm 1 2 ≠ .ret ∧
      (∀ x, Instr.ldImm 1 2 ≠ .ldDtVx x) ∧ (∀ x, Instr.ldImm 1 2 ≠ .ldStVx x) ∧ Instr.ldImm 1 2 ≠ .cls ∧
      (∀ x y n, Instr.ldImm 1 2 ≠ .drw x y n) ∧ (∀ x, Instr.ldImm 1 2 ≠ .ldVxK x) ∧ (∀ x, Instr.ldImm 1 2 ≠ .ldBVx x) ∧
      ∀ x, Instr.ldImm 1 2 ≠ .storeRegs x := ⟨_, rfl, by simp⟩

/-- StepRunsDecodedInstruction, with the schedule used up and with a STEP at its head. -/
theorem witness_StepRunsDecodedInstruction :
    (NextIsStep (State.reset.withFetchWord 16 0x6110) none (State.reset.withFetchWord 16 0x6110) ∧
      (State.reset.withFetchWord 16 0x6110).run = .running ∧
      decode ((State.reset.withFetchWord 16 0x6110).readByte 0x200 ++ (State.reset.withFetchWord 16 0x6110).readByte 0x201) =
        .ok (.ldImm 1 0x10)) ∧
      NextIsStep { State.reset with schedule := [.step 7, .tick] } (some 7) { State.reset with schedule := [.tick] } :=
  ⟨⟨.inl ⟨rfl, rfl, rfl⟩, rfl, by decide⟩, .inr ⟨7, [.tick], rfl, rfl, rfl⟩⟩

theorem witness_FaultedStepHalts :
    NextIsStep { State.reset with run := .faulted } none { State.reset with run := .faulted } := .inl ⟨rfl, rfl, rfl⟩

/-- UnknownWordIsReported and the first cause of ErrorCausesAreTheThree: the state after reset fetches 0x0000. -/
theorem witness_UnknownWordIsReported :
    NextIsStep State.reset none State.reset ∧ State.reset.run = .running ∧
      State.reset.readByte 0x200 ++ State.reset.readByte 0x201 = (0 : Word) ∧
      (∀ r ∈ opcodeTable, (0 : Word) &&& r.mask ≠ r.value) ∧ State.reset.SpLegal :=
  ⟨.inl ⟨rfl, rfl, rfl⟩, rfl, by decide, by decide, by decide⟩

theorem witness_ErrorsAreWholeAndPrecise :
    ∃ t, NextIsStep State.reset none State.reset ∧ State.reset.run ≠ .faulted ∧ step State.reset = .next t ∧
      t.run = .faulted := ⟨_, .inl ⟨rfl, rfl, rfl⟩, by decide, rfl, by decide⟩

/-- The other two causes of ErrorCausesAreTheThree, and StepLeavesTimersAndKeys with a timer written. -/
theorem witness_ErrorCausesAreTheThree :
    ({ State.reset with sp := 16 }.withFetchWord 16 0x2400).fetchWord &&& 0xF000 = 0x2000 ∧
      (State.reset.withFetchWord 16 0x00EE).fetchWord = 0x00EE ∧ { State.reset with sp := 16 }.SpLegal ∧
      stepWord 0xF015 (regs [(0, 3)]) (fun t => t.dt != 0) = true := by decide

theorem witness_SelfJumpRepeats :
    NextIsStep (State.reset.withFetchWord 16 0x1200) none (State.reset.withFetchWord 16 0x1200) ∧
      (State.reset.withFetchWord 16 0x1200).run = .running ∧ (State.reset.withFetchWord 16 0x1200).AtSelfJump :=
  ⟨.inl ⟨rfl, rfl, rfl⟩, rfl, 0x200, by decide, by decide⟩

/-- The premises of the transaction statements, and a legal state for the invariant. -/
theorem witness_transactions :
    { State.reset with schedule := [.reset] }.schedule = .reset :: [] ∧
      { State.reset with schedule := [.tick] }.schedule = .tick :: [] ∧
      { State.reset with schedule := [.keyWrite 3] }.schedule = .keyWrite 3 :: [] ∧
      { State.reset with schedule := [.fbRead] }.schedule = .fbRead :: [] ∧
      { State.reset with schedule := [.load 4096 []] }.schedule = .load 4096 [] :: [] ∧
      { State.reset with schedule := [.load 4096 []] }.MemLegal ∧
      4096 + ([] : List Byte).length ≤ 4096 ∧ 4096 < 4096 + [(1 : Byte)].length := by
  refine ⟨rfl, rfl, rfl, rfl, rfl, by decide, by decide, by decide⟩

theorem witness_StepKeepsLegalState : ∃ t, State.reset.Inv ∧ step State.reset = .next t := ⟨_, by decide, rfl⟩

/-- FaultedUntilReset, with each of its two last premises. -/
theorem witness_FaultedUntilReset :
    ∃ t, { State.reset with run := .faulted, schedule := [.keyWrite 1] }.schedule.head? ≠ some .reset ∧
      step { State.reset with run := .faulted, schedule := [.keyWrite 1] } = .next t ∧
      (∀ start bytes, some (Transaction.keyWrite 1) ≠ some (.load start bytes)) ∧
      some (Transaction.keyWrite 1) ≠ some .tick := ⟨_, by decide, rfl, by simp, by simp⟩

theorem witness_WaitingEndsOnlyByEdgeOrReset :
    ∃ t, { State.reset with run := .waiting 0, keys := 1 }.run = .waiting 0 ∧
      step { State.reset with run := .waiting 0, keys := 1 } = .next t ∧ t.run ≠ .waiting 0 :=
  ⟨_, rfl, rfl, by decide⟩

end Sys2Proof.Tests
end

section
/-! PROOFS. The opcode table of 30_encoding.md R90 against the decoder of R86: what every row's words are read as, which
row an instruction that was read belongs to, and from both that the rows are disjoint. -/

namespace Sys2Proof.Machine

/-! ### From the fields of a word to the word under a mask -/

/-- The category is all that mask 0xF000 keeps. -/
theorem and_F000_of_fieldC {w : Word} {c : Nat} (hc : fieldC w = c) : w &&& 0xF000 = BitVec.ofNat 16 (c * 4096) := by
  rw [← hc, fieldC_eq, ← and_F000, BitVec.ofNat_toNat, BitVec.setWidth_eq]

/-- The category and the function code are all that mask 0xF00F keeps. -/
theorem and_F00F_of_fields {w : Word} {c n : Nat} (hc : fieldC w = c) (hn : fieldN w = n) :
    w &&& 0xF00F = BitVec.ofNat 16 (c * 4096 + n) := by
  rw [← hc, ← hn, fieldC_eq, fieldN_eq, ← and_F00F, BitVec.ofNat_toNat, BitVec.setWidth_eq]

/-- The category and the function byte are all that mask 0xF0FF keeps. -/
theorem and_F0FF_of_fields {w : Word} {c kk : Nat} (hc : fieldC w = c) (hkk : (fieldKK w).toNat = kk) :
    w &&& 0xF0FF = BitVec.ofNat 16 (c * 4096 + kk) := by
  rw [← hc, ← hkk, fieldC_eq, fieldKK_toNat, ← and_F0FF, BitVec.ofNat_toNat, BitVec.setWidth_eq]

/-! ### What the words of each row are read as (R90) -/

theorem reads_cls : Reads 0xFFFF 0x00E0 (fun _ => .cls) := fun w h => by
  obtain rfl : w = 0x00E0 := (and_FFFF w).symm.trans h
  rfl

theorem reads_ret : Reads 0xFFFF 0x00EE (fun _ => .ret) := fun w h => by
  obtain rfl : w = 0x00EE := (and_FFFF w).symm.trans h
  rfl

theorem reads_jp : Reads 0xF000 0x1000 (fun w => .jp (fieldNNN w)) := fun _ h => by
  simp [decode, fieldC_of_and_F000 (by decide) h]

theorem reads_call : Reads 0xF000 0x2000 (fun w => .call (fieldNNN w)) := fun _ h => by
  simp [decode, fieldC_of_and_F000 (by decide) h]

theorem reads_seImm : Reads 0xF000 0x3000 (fun w => .seImm (fieldX w) (fieldKK w)) := fun _ h => by
  simp [decode, fieldC_of_and_F000 (by decide) h]

theorem reads_sneImm : Reads 0xF000 0x4000 (fun w => .sneImm (fieldX w) (fieldKK w)) := fun _ h => by
  simp [decode, fieldC_of_and_F000 (by decide) h]

theorem reads_seReg : Reads 0xF00F 0x5000 (fun w => .seReg (fieldX w) (fieldY w)) := fun _ h => by
  simp [decode, fields_of_and_F00F (by decide) h]

theorem reads_ldImm : Reads 0xF000 0x6000 (fun w => .ldImm (fieldX w) (fieldKK w)) := fun _ h => by
  simp [decode, fieldC_of_and_F000 (by decide) h]

theorem reads_addImm : Reads 0xF000 0x7000 (fun w => .addImm (fieldX w) (fieldKK w)) := fun _ h => by
  simp [decode, fieldC_of_and_F000 (by decide) h]

theorem reads_ldReg : Reads 0xF00F 0x8000 (fun w => .ldReg (fieldX w) (fieldY w)) := fun _ h => by
  simp [decode, fields_of_and_F00F (by decide) h]

theorem reads_orReg : Reads 0xF00F 0x8001 (fun w => .orReg (fieldX w) (fieldY w)) := fun _ h => by
  simp [decode, fields_of_and_F00F (by decide) h]

theorem reads_andReg : Reads 0xF00F 0x8002 (fun w => .andReg (fieldX w) (fieldY w)) := fun _ h => by
  simp [decode, fields_of_and_F00F (by decide) h]

theorem reads_xorReg : Reads 0xF00F 0x8003 (fun w => .xorReg (fieldX w) (fieldY w)) := fun _ h => by
  simp [decode, fields_of_and_F00F (by decide) h]

theorem reads_addReg : Reads 0xF00F 0x8004 (fun w => .addReg (fieldX w) (fieldY w)) := fun _ h => by
  simp [decode, fields_of_and_F00F (by decide) h]

theorem reads_subReg : Reads 0xF00F 0x8005 (fun w => .subReg (fieldX w) (fieldY w)) := fun _ h => by
  simp [decode, fields_of_and_F00F (by decide) h]

theorem reads_shr : Reads 0xF00F 0x8006 (fun w => .shr (fieldX w) (fieldY w)) := fun _ h => by
  simp [decode, fields_of_and_F00F (by decide) h]

theorem reads_subnReg : Reads 0xF00F 0x8007 (fun w => .subnReg (fieldX w) (fieldY w)) := fun _ h => by
  simp [decode, fields_of_and_F00F (by decide) h]

theorem reads_shl : Reads 0xF00F 0x800E (fun w => .shl (fieldX w) (fieldY w)) := fun _ h => by
  simp [decode, fields_of_and_F00F (by decide) h]

theorem reads_sneReg : Reads 0xF00F 0x9000 (fun w => .sneReg (fieldX w) (fieldY w)) := fun _ h => by
  simp [decode, fields_of_and_F00F (by decide) h]

theorem reads_ldI : Reads 0xF000 0xA000 (fun w => .ldI (fieldNNN w)) := fun _ h => by
  simp [decode, fieldC_of_and_F000 (by decide) h]

theorem reads_jpV0 : Reads 0xF000 0xB000 (fun w => .jpV0 (fieldNNN w)) := fun _ h => by
  simp [decode, fieldC_of_and_F000 (by decide) h]

theorem reads_rnd : Reads 0xF000 0xC000 (fun w => .rnd (fieldX w) (fieldKK w)) := fun _ h => by
  simp [decode, fieldC_of_and_F000 (by decide) h]

theorem reads_drw : Reads 0xF000 0xD000 (fun w => .drw (fieldX w) (fieldY w) (fieldN w)) := fun _ h => by
  simp [decode, fieldC_of_and_F000 (by decide) h]

theorem reads_skp : Reads 0xF0FF 0xE09E (fun w => .skp (fieldX w)) := fun _ h => by
  simp [decode, fields_of_and_F0FF (by decide) h]

theorem reads_sknp : Reads 0xF0FF 0xE0A1 (fun w => .sknp (fieldX w)) := fun _ h => by
  simp [decode, fields_of_and_F0FF (by decide) h]

theorem reads_ldVxDt : Reads 0xF0FF 0xF007 (fun w => .ldVxDt (fieldX w)) := fun _ h => by
  simp [decode, fields_of_and_F0FF (by decide) h]

theorem reads_ldVxK : Reads 0xF0FF 0xF00A (fun w => .ldVxK (fieldX w)) := fun _ h => by
  simp [decode, fields_of_and_F0FF (by decide) h]

theorem reads_ldDtVx : Reads 0xF0FF 0xF015 (fun w => .ldDtVx (fieldX w)) := fun _ h => by
  simp [decode, fields_of_and_F0FF (by decide) h]

theorem reads_ldStVx : Reads 0xF0FF 0xF018 (fun w => .ldStVx (fieldX w)) := fun _ h => by
  simp [decode, fields_of_and_F0FF (by decide) h]

theorem reads_addIVx : Reads 0xF0FF 0xF01E (fun w => .addIVx (fieldX w)) := fun _ h => by
  simp [decode, fields_of_and_F0FF (by decide) h]

theorem reads_ldFVx : Reads 0xF0FF 0xF029 (fun w => .ldFVx (fieldX w)) := fun _ h => by
  simp [decode, fields_of_and_F0FF (by decide) h]

theorem reads_ldBVx : Reads 0xF0FF 0xF033 (fun w => .ldBVx (fieldX w)) := fun _ h => by
  simp [decode, fields_of_and_F0FF (by decide) h]

theorem reads_storeRegs : Reads 0xF0FF 0xF055 (fun w => .storeRegs (fieldX w)) := fun _ h => by
  simp [decode, fields_of_and_F0FF (by decide) h]

theorem reads_loadRegs : Reads 0xF0FF 0xF065 (fun w => .loadRegs (fieldX w)) := fun _ h => by
  simp [decode, fields_of_and_F0FF (by decide) h]

/-! ### Rows and the decoder -/

/-- A row whose words are all read as an instruction of that row. -/
def RowDecodes (r : OpcodeRow) : Prop :=
  ∀ w : Word, w &&& r.mask = r.value → ∃ i, decode w = .ok i ∧ i.row = r

theorem Reads.rowDecodes {mask value : Word} {mk : Word → Instr} (h : Reads mask value mk)
    (hrow : ∀ w, (mk w).row = ⟨value, mask⟩) : RowDecodes ⟨value, mask⟩ :=
  fun w hw => ⟨mk w, h w hw, hrow w⟩

theorem rowDecodes_of_mem_opcodeTable : ∀ r ∈ opcodeTable, RowDecodes r := by
  simp only [opcodeTable, List.cons_append, List.nil_append, List.forall_mem_cons]
  exact ⟨reads_cls.rowDecodes fun _ => rfl, reads_ret.rowDecodes fun _ => rfl, reads_jp.rowDecodes fun _ => rfl,
    reads_call.rowDecodes fun _ => rfl, reads_seImm.rowDecodes fun _ => rfl, reads_sneImm.rowDecodes fun _ => rfl,
    reads_seReg.rowDecodes fun _ => rfl, reads_ldImm.rowDecodes fun _ => rfl, reads_addImm.rowDecodes fun _ => rfl,
    reads_ldReg.rowDecodes fun _ => rfl, reads_orReg.rowDecodes fun _ => rfl, reads_andReg.rowDecodes fun _ => rfl,
    reads_xorReg.rowDecodes fun _ => rfl, reads_addReg.rowDecodes fun _ => rfl, reads_subReg.rowDecodes fun _ => rfl,
    reads_shr.rowDecodes fun _ => rfl, reads_subnReg.rowDecodes fun _ => rfl, reads_shl.rowDecodes fun _ => rfl,
    reads_sneReg.rowDecodes fun _ => rfl, reads_ldI.rowDecodes fun _ => rfl, reads_jpV0.rowDecodes fun _ => rfl,
    reads_rnd.rowDecodes fun _ => rfl, reads_drw.rowDecodes fun _ => rfl, reads_skp.rowDecodes fun _ => rfl,
    reads_sknp.rowDecodes fun _ => rfl, reads_ldVxDt.rowDecodes fun _ => rfl, reads_ldVxK.rowDecodes fun _ => rfl,
    reads_ldDtVx.rowDecodes fun _ => rfl, reads_ldStVx.rowDecodes fun _ => rfl, reads_addIVx.rowDecodes fun _ => rfl,
    reads_ldFVx.rowDecodes fun _ => rfl, reads_ldBVx.rowDecodes fun _ => rfl, reads_storeRegs.rowDecodes fun _ => rfl,
    reads_loadRegs.rowDecodes fun _ => rfl,
    List.forall_mem_nil _⟩

theorem row_mem_opcodeTable (i : Instr) : i.row ∈ opcodeTable := by
  cases i <;> simp [Instr.row, opcodeTable]

/-- A word is read only as an instruction whose row it matches: each branch of the decoder has fixed exactly the fields
that the row's mask keeps. -/
theorem and_row_mask_of_decode {w : Word} {i : Instr} (h : decode w = .ok i) : w &&& i.row.mask = i.row.value := by
  unfold decode at h
  split at h
  case h_1 => -- category 0: the whole word
    split_ifs at h with hcls hret
    · cases h; subst hcls; rfl
    · cases h; subst hret; rfl
  case h_6 hc | h_10 hc => -- categories 5 and 9: function code 0
    split_ifs at h with hn
    cases h
    exact and_F00F_of_fields hc hn
  case h_9 hc => -- category 8: by function code
    split at h <;> cases h <;> exact and_F00F_of_fields hc ‹_›
  case h_15 hc | h_16 hc => -- categories E and F: by function byte
    split at h <;> cases h <;> exact and_F0FF_of_fields hc ‹_›
  case h_17 => cases h -- no other category is read
  all_goals -- the categories that are one instruction each
    cases h
    exact and_F000_of_fieldC ‹_›

/-- A word matches at most one row, since the decoder reads one instruction and that has one row. -/
theorem row_unique {w : Word} {r q : OpcodeRow} (hr : r ∈ opcodeTable) (hq : q ∈ opcodeTable)
    (hwr : w &&& r.mask = r.value) (hwq : w &&& q.mask = q.value) : r = q := by
  obtain ⟨i, hi, rfl⟩ := rowDecodes_of_mem_opcodeTable r hr w hwr
  obtain ⟨j, hj, rfl⟩ := rowDecodes_of_mem_opcodeTable q hq w hwq
  rw [Except.ok.inj (hi.symm.trans hj)]

/-- Settles O4: a matching row is read as an instruction of that row, an instruction that was read matches its own row,
and so two rows of one word are the row of one instruction. -/
theorem decoderFollowsOpcodeTable : Obligations.DecoderFollowsOpcodeTable := by
  unfold Obligations.DecoderFollowsOpcodeTable
  refine ⟨fun w => ⟨?_, ?_⟩, fun w i h => ⟨row_mem_opcodeTable i, and_row_mask_of_decode h⟩,
    fun w r hr q hq => row_unique hr hq⟩
  · rintro ⟨i, h⟩
    exact ⟨i.row, row_mem_opcodeTable i, and_row_mask_of_decode h⟩
  · rintro ⟨r, hr, h⟩
    obtain ⟨i, hi, -⟩ := rowDecodes_of_mem_opcodeTable r hr w h
    exact ⟨i, hi⟩

end Sys2Proof.Machine
end

section
/-! PROOFS. The jump to an address and the skips on registers of 41_control_flow.md: each one is a write of PC and
nothing else. -/

namespace Sys2Proof.Machine

/-! ### What the jump and the skips do -/

/-- R121. -/
theorem exec_jp (nnn : Addr12) (s : State) : exec (.jp nnn) s = .next { s with pc := BitVec.ofNat 16 nnn.toNat } := by
  rw [← zext12_eq]
  rfl

/-- A skip in terms of the condition that its comparison decides. -/
theorem skipIf_eq_of_iff {c : Bool} {p : Prop} [Decidable p] (h : c = true ↔ p) (s : State) :
    s.skipIf c = { s with pc := if p then s.pc + 4 else s.pc + 2 } := by
  simp only [State.skipIf, State.setPc, h]

/-- R124. -/
theorem exec_seImm (x : Reg) (kk : Byte) (s : State) :
    exec (.seImm x kk) s = .next { s with pc := if s.v[x] = kk then s.pc + 4 else s.pc + 2 } :=
  congrArg Host.Outcome.next (skipIf_eq_of_iff beq_iff_eq s)

/-- R125. -/
theorem exec_sneImm (x : Reg) (kk : Byte) (s : State) :
    exec (.sneImm x kk) s = .next { s with pc := if s.v[x] ≠ kk then s.pc + 4 else s.pc + 2 } :=
  congrArg Host.Outcome.next (skipIf_eq_of_iff bne_iff_ne s)

/-- R126. -/
theorem exec_seReg (x y : Reg) (s : State) :
    exec (.seReg x y) s = .next { s with pc := if s.v[x] = s.v[y] then s.pc + 4 else s.pc + 2 } :=
  congrArg Host.Outcome.next (skipIf_eq_of_iff beq_iff_eq s)

/-- R127. -/
theorem exec_sneReg (x y : Reg) (s : State) :
    exec (.sneReg x y) s = .next { s with pc := if s.v[x] ≠ s.v[y] then s.pc + 4 else s.pc + 2 } :=
  congrArg Host.Outcome.next (skipIf_eq_of_iff bne_iff_ne s)

/-! ### The statements -/

/-- Settles O18: each of the four rows is read as its instruction, which is `skipIf` on its own comparison. -/
theorem registerSkipsWriteOnlyPc : Obligations.RegisterSkipsWriteOnlyPc := by
  unfold Obligations.RegisterSkipsWriteOnlyPc
  exact ⟨⟨reads_seImm, exec_seImm⟩, ⟨reads_sneImm, exec_sneImm⟩, ⟨reads_seReg, exec_seReg⟩, reads_sneReg, exec_sneReg⟩

/-- Settles O12: the row is read as JP, which writes PC and keeps every other field. -/
theorem jumpWritesOnlyPc : Obligations.JumpWritesOnlyPc := by
  unfold Obligations.JumpWritesOnlyPc
  exact ⟨reads_jp, exec_jp⟩

end Sys2Proof.Machine
end

section
/-! PROOFS. Register loads and the ALU of 42_alu.md: the two ends of an ALU instruction, a plain write of Vx and
`WriteResultAndFlag`, each followed by the advance of PC, and the results and flags in exact arithmetic. -/

namespace Sys2Proof.Machine

/-! ### Results and flags in exact arithmetic -/

/-- R147, R149: the difference modulo 256. -/
theorem sub_eq_ofInt (a b : Byte) : a - b = BitVec.ofInt 8 ((a.toNat : Int) - b.toNat) := by
  apply BitVec.eq_of_toNat_eq
  rw [BitVec.toNat_sub, BitVec.toNat_ofInt]
  omega

/-- R148: the shift to the right halves. -/
theorem ushiftRight_one_eq_ofNat (a : Byte) : a >>> 1 = BitVec.ofNat 8 (a.toNat / 2) := by
  apply BitVec.eq_of_toNat_eq
  rw [BitVec.toNat_ushiftRight, BitVec.toNat_ofNat, Nat.shiftRight_one]
  omega

/-- R150: the shift to the left doubles modulo 256. -/
theorem shiftLeft_one_eq_ofNat (a : Byte) : a <<< 1 = BitVec.ofNat 8 (a.toNat * 2) := by
  apply BitVec.eq_of_toNat_eq
  rw [BitVec.toNat_shiftLeft, BitVec.toNat_ofNat, Nat.shiftLeft_eq, Nat.pow_one]

theorem flagByte_decide (p : Prop) [Decidable p] : flagByte (decide p) = if p then 1 else 0 := by
  simp only [flagByte, decide_eq_true_eq]

/-- A bit of a byte as the byte VF holds. -/
theorem flagByte_getLsbD (a : Byte) (k : Nat) : flagByte (a.getLsbD k) = BitVec.ofNat 8 (a.toNat / 2 ^ k % 2) := by
  rw [BitVec.getLsbD, Nat.testBit_eq_decide_div_mod_eq, flagByte_decide]
  rcases Nat.mod_two_eq_zero_or_one (a.toNat / 2 ^ k) with h | h <;> simp [h]

/-- R148: bit 0 is the remainder of the halving. -/
theorem shrFlag_eq (a : Byte) : shrFlag a = BitVec.ofNat 8 (a.toNat % 2) := by
  rw [shrFlag, flagByte_getLsbD, Nat.pow_zero, Nat.div_one]

/-- R150: bit 7 is the overflow of the doubling. -/
theorem shlFlag_eq (a : Byte) : shlFlag a = BitVec.ofNat 8 (a.toNat / 128) := by
  have hlt : a.toNat / 128 < 2 := by omega
  rw [shlFlag, flagByte_getLsbD, show 2 ^ 7 = 128 from rfl, Nat.mod_eq_of_lt hlt]

/-! ### The two ends of an ALU instruction -/

/-- Writing Vx and moving on writes Vx and PC. -/
theorem setReg_advance (s : State) (x : Reg) {b c : Byte} (h : b = c) :
    (s.setReg x b).advance = { s with v := s.v.set x c, pc := s.pc + 2 } := by
  rw [h]
  rfl

/-- R153: `WriteResultAndFlag` and moving on writes Vx and VF, in the order of `VF_LAST`, and PC. -/
theorem writeResultAndFlag_advance (s : State) (x : Reg) {res res' flag flag' : Byte} (hres : res = res')
    (hflag : flag = flag') :
    (s.writeResultAndFlag x res flag).advance =
      { s with v := resultAndFlag s.cfg.vfLast s.v x res' flag', pc := s.pc + 2 } := by
  subst hres hflag
  unfold State.writeResultAndFlag resultAndFlag
  split <;> rfl

/-- R109: a draw that came with the STEP uses up no free value. -/
theorem consumeDraw_of_rand {s : State} {r : Byte} (h : s.rand = some r) : s.consumeDraw = s := by
  have hs : s.rand.isSome = true := Option.isSome_of_eq_some h
  rw [State.consumeDraw, if_pos hs]

theorem draw_of_rand {s : State} {r : Byte} (h : s.rand = some r) : s.draw = r := by
  simp [State.draw, h]

/-! ### What the instructions do -/

/-- R140. -/
theorem exec_ldImm (x : Reg) (kk : Byte) (s : State) :
    exec (.ldImm x kk) s = .next { s with v := s.v.set x kk, pc := s.pc + 2 } :=
  congrArg Host.Outcome.next (setReg_advance s x rfl)

/-- R141. -/
theorem exec_addImm (x : Reg) (kk : Byte) (s : State) :
    exec (.addImm x kk) s =
      .next { s with v := s.v.set x (BitVec.ofNat 8 (s.v[x].toNat + kk.toNat)), pc := s.pc + 2 } :=
  congrArg Host.Outcome.next (setReg_advance s x (BitVec.add_def ..))

/-- R142. -/
theorem exec_ldReg (x y : Reg) (s : State) :
    exec (.ldReg x y) s = .next { s with v := s.v.set x s.v[y], pc := s.pc + 2 } :=
  congrArg Host.Outcome.next (setReg_advance s x rfl)

/-- R143. -/
theorem exec_orReg (x y : Reg) (s : State) :
    exec (.orReg x y) s = .next { s with v := s.v.set x (s.v[x] ||| s.v[y]), pc := s.pc + 2 } :=
  congrArg Host.Outcome.next (setReg_advance s x rfl)

/-- R144. -/
theorem exec_andReg (x y : Reg) (s : State) :
    exec (.andReg x y) s = .next { s with v := s.v.set x (s.v[x] &&& s.v[y]), pc := s.pc + 2 } :=
  congrArg Host.Outcome.next (setReg_advance s x rfl)

/-- R145. -/
theorem exec_xorReg (x y : Reg) (s : State) :
    exec (.xorReg x y) s = .next { s with v := s.v.set x (s.v[x] ^^^ s.v[y]), pc := s.pc + 2 } :=
  congrArg Host.Outcome.next (setReg_advance s x rfl)

/-- R146. -/
theorem exec_addReg (x y : Reg) (s : State) :
    exec (.addReg x y) s =
      .next { s with
        v := resultAndFlag s.cfg.vfLast s.v x (BitVec.ofNat 8 (s.v[x].toNat + s.v[y].toNat))
          (if s.v[x].toNat + s.v[y].toNat > 255 then 1 else 0)
        pc := s.pc + 2 } :=
  congrArg Host.Outcome.next (writeResultAndFlag_advance s x (BitVec.add_def ..) (flagByte_decide _))

/-- R147. -/
theorem exec_subReg (x y : Reg) (s : State) :
    exec (.subReg x y) s =
      .next { s with
        v := resultAndFlag s.cfg.vfLast s.v x (BitVec.ofInt 8 ((s.v[x].toNat : Int) - s.v[y].toNat))
          (if s.v[x].toNat > s.v[y].toNat then 1 else 0)
        pc := s.pc + 2 } :=
  congrArg Host.Outcome.next (writeResultAndFlag_advance s x (sub_eq_ofInt ..) (flagByte_decide _))

/-- R149. -/
theorem exec_subnReg (x y : Reg) (s : State) :
    exec (.subnReg x y) s =
      .next { s with
        v := resultAndFlag s.cfg.vfLast s.v x (BitVec.ofInt 8 ((s.v[y].toNat : Int) - s.v[x].toNat))
          (if s.v[y].toNat > s.v[x].toNat then 1 else 0)
        pc := s.pc + 2 } :=
  congrArg Host.Outcome.next (writeResultAndFlag_advance s x (sub_eq_ofInt ..) (flagByte_decide _))

/-- R148. -/
theorem exec_shr (x y : Reg) (s : State) :
    exec (.shr x y) s =
      .next { s with
        v := resultAndFlag s.cfg.vfLast s.v x (BitVec.ofNat 8 (s.v[x].toNat / 2)) (BitVec.ofNat 8 (s.v[x].toNat % 2))
        pc := s.pc + 2 } :=
  congrArg Host.Outcome.next (writeResultAndFlag_advance s x (ushiftRight_one_eq_ofNat _) (shrFlag_eq _))

/-- R150. -/
theorem exec_shl (x y : Reg) (s : State) :
    exec (.shl x y) s =
      .next { s with
        v := resultAndFlag s.cfg.vfLast s.v x (BitVec.ofNat 8 (s.v[x].toNat * 2)) (BitVec.ofNat 8 (s.v[x].toNat / 128))
        pc := s.pc + 2 } :=
  congrArg Host.Outcome.next (writeResultAndFlag_advance s x (shiftLeft_one_eq_ofNat _) (shlFlag_eq _))

/-- R151. -/
theorem exec_rnd_of_rand {s : State} {r : Byte} (h : s.rand = some r) (x : Reg) (kk : Byte) :
    exec (.rnd x kk) s = .next { s with v := s.v.set x (r &&& kk), pc := s.pc + 2 } := by
  change Host.Outcome.next (s.consumeDraw.setReg x (s.draw &&& kk)).advance = _
  rw [consumeDraw_of_rand h, draw_of_rand h, setReg_advance s x rfl]

/-! ### The statements -/

/-- Settles O6: each of the six rows is read as its instruction, which is one write of Vx. -/
theorem loadsAndLogicWriteOnlyVx : Obligations.LoadsAndLogicWriteOnlyVx := by
  unfold Obligations.LoadsAndLogicWriteOnlyVx
  exact ⟨⟨reads_ldImm, exec_ldImm⟩, ⟨reads_addImm, exec_addImm⟩, ⟨reads_ldReg, exec_ldReg⟩, ⟨reads_orReg, exec_orReg⟩,
    ⟨reads_andReg, exec_andReg⟩, reads_xorReg, exec_xorReg⟩

/-- Settles O7: each of the three rows is read as its instruction, which is one `WriteResultAndFlag`. -/
theorem addAndSubtractWriteResultAndFlag : Obligations.AddAndSubtractWriteResultAndFlag := by
  unfold Obligations.AddAndSubtractWriteResultAndFlag
  exact ⟨⟨reads_addReg, exec_addReg⟩, ⟨reads_subReg, exec_subReg⟩, reads_subnReg, exec_subnReg⟩

/-- Settles O8: both rows are read as their instruction for every `y`, and it is one `WriteResultAndFlag`. -/
theorem shiftsWriteResultAndShiftedOutBit : Obligations.ShiftsWriteResultAndShiftedOutBit := by
  unfold Obligations.ShiftsWriteResultAndShiftedOutBit
  exact ⟨⟨reads_shr, exec_shr⟩, reads_shl, exec_shl⟩

/-- Settles O9: the row is read as RND, which with a draw of the STEP is one write of Vx. -/
theorem randomWritesMaskedDraw : Obligations.RandomWritesMaskedDraw := by
  unfold Obligations.RandomWritesMaskedDraw
  exact ⟨reads_rnd, fun x kk _ _ h => exec_rnd_of_rand h x kk⟩

end Sys2Proof.Machine
end

section
/-! PROOFS. The instructions that write I and the decimal store of 43_index_memory.md: a write of I in exact arithmetic,
and a block of bytes written to MEM, each followed by the advance of PC. -/

namespace Sys2Proof.Machine

/-! ### Operands and values of I in exact arithmetic -/

/-- R33: a write of I keeps its value modulo `2^I_WIDTH`. -/
theorem maskIndex_eq (w : IndexWidth) (n : Nat) : maskIndex w n = BitVec.ofNat 16 (n % 2 ^ indexBits w) := by
  cases w with
  | w16 => exact BitVec.eq_of_toNat_eq (by simp [maskIndex, indexBits])
  | w12 => rfl

/-- R170: an address field is below `2^I_WIDTH` for both widths. -/
theorem maskIndex_addr (w : IndexWidth) (nnn : Addr12) : maskIndex w nnn.toNat = BitVec.ofNat 16 nnn.toNat := by
  cases w with
  | w16 => rfl
  | w12 => exact congrArg (BitVec.ofNat 16) (Nat.mod_eq_of_lt nnn.isLt)

/-- R172. -/
theorem fontDigit_eq (m : FontDigitMode) (b : Byte) :
    fontDigit m b = if m = .lowNibble then b.toNat % 16 else b.toNat := by
  cases m <;> rfl

@[simp] theorem decimalDigits_length (b : Byte) : (decimalDigits b).length = 3 := rfl

/-! ### The two ends of the instructions -/

/-- Writing I and moving on writes I and PC. -/
theorem setI_advance (s : State) {n : Nat} {w : Word} (h : maskIndex s.cfg.iWidth n = w) :
    (s.setI n).advance = { s with i := w, pc := s.pc + 2 } := by
  rw [← h]
  rfl

/-- Writing a block of bytes and moving on writes MEM and PC. -/
theorem memWrite_advance (s : State) (a : Nat) (bs : List Byte) :
    (s.memWrite a bs).advance = { s with mem := (s.memWrite a bs).mem, pc := s.pc + 2 } := by
  rw [memWrite_eq]
  rfl

/-! ### What the instructions do -/

/-- R170. -/
theorem exec_ldI (nnn : Addr12) (s : State) :
    exec (.ldI nnn) s = .next { s with i := BitVec.ofNat 16 nnn.toNat, pc := s.pc + 2 } :=
  congrArg Host.Outcome.next (setI_advance s (maskIndex_addr ..))

/-- R171: the flag is a write of VF in the one setting of `FX1E_SETS_VF` and no write in the other. -/
theorem exec_addIVx (x : Reg) (s : State) :
    exec (.addIVx x) s =
      .next { s with
        i := BitVec.ofNat 16 ((s.i.toNat + s.v[x].toNat) % 2 ^ indexBits s.cfg.iWidth)
        v := if s.cfg.fx1eSetsVf then s.v.set 15 (if s.i.toNat + s.v[x].toNat > 0xFFF then 1 else 0) else s.v
        pc := s.pc + 2 } := by
  change Host.Outcome.next (State.advance (if s.cfg.fx1eSetsVf then _ else _)) = _
  rw [← maskIndex_eq, ← flagByte_decide]
  split <;> rfl

/-- R172. -/
theorem exec_ldFVx (x : Reg) (s : State) :
    exec (.ldFVx x) s =
      .next { s with
        i := BitVec.ofNat 16
          ((if s.cfg.fontDigitMode = .lowNibble then s.v[x].toNat % 16 else s.v[x].toNat) * 5 %
            2 ^ indexBits s.cfg.iWidth)
        pc := s.pc + 2 } := by
  rw [← fontDigit_eq, ← maskIndex_eq]
  exact congrArg Host.Outcome.next (setI_advance s rfl)

/-- R174. -/
theorem exec_ldBVx (x : Reg) (s : State) :
    exec (.ldBVx x) s =
      .next { s with mem := (s.memWrite s.i.toNat (decimalDigits s.v[x])).mem, pc := s.pc + 2 } :=
  congrArg Host.Outcome.next (memWrite_advance ..)

/-! ### The statements -/

/-- Settles O19: each of the three rows is read as its instruction, which is one write of I, and for Fx1E under
`FX1E_SETS_VF` one write of VF. -/
theorem indexInstructionsWriteIndex : Obligations.IndexInstructionsWriteIndex := by
  unfold Obligations.IndexInstructionsWriteIndex
  exact ⟨⟨reads_ldI, exec_ldI⟩, ⟨reads_addIVx, exec_addIVx⟩, reads_ldFVx, exec_ldFVx⟩

/-- Settles O20: the row is read as Fx33, which is one write of the block of three digits at I; a read inside the block
gives the digit written, a read outside it what the byte was. -/
theorem decimalStoreWritesThreeDigits : Obligations.DecimalStoreWritesThreeDigits := by
  unfold Obligations.DecimalStoreWritesThreeDigits
  refine ⟨reads_ldBVx, fun x s hs => ⟨_, exec_ldBVx x s, ?_⟩⟩
  have digit {k : Nat} (hk : k < 3) :
      (s.memWrite s.i.toNat (decimalDigits s.v[x])).readByte ((s.i.toNat + k) % 4096) = (decimalDigits s.v[x])[k] := by
    rw [readByte_mod]
    exact readByte_memWrite_same hs _ _ (by simp) hk
  rw [← memWrite_eq]
  exact ⟨digit (k := 0) (by decide), digit (k := 1) (by decide), digit (k := 2) (by decide),
    fun a ha => readByte_memWrite_other hs _ a _ ha⟩

end Sys2Proof.Machine
end

section
/-! PROOFS. CLS of 44_display.md: one write of the whole framebuffer, followed by the advance of PC. -/

namespace Sys2Proof.Machine

/-- R190: the new framebuffer does not depend on the old one, and VF is not written. -/
theorem exec_cls (s : State) : exec .cls s = .next { s with fb := Frame.clear, pc := s.pc + 2 } := rfl

/-- Settles O27: the row is read as CLS, which writes the clear framebuffer and PC, and no pixel of it is on. -/
theorem clearTurnsEveryPixelOff : Obligations.ClearTurnsEveryPixelOff := by
  unfold Obligations.ClearTurnsEveryPixelOff
  exact ⟨reads_cls, fun s => ⟨Frame.clear, exec_cls s, pixel_clear⟩⟩

end Sys2Proof.Machine
end

section
/-! PROOFS. The key skips and the timer moves of 45_timers_keypad.md: the level of the key that Vx names in each
key index mode, the two skips in terms of that level, and the three moves as one write each, followed by the advance of
PC. -/

namespace Sys2Proof.Machine

/-! ### The level of a key -/

/-- R213 in the mode `low_nibble`. -/
theorem pressed_of_lowNibble {s : State} (h : s.cfg.keyIndexMode = .lowNibble) (b : Byte) :
    s.pressed b = s.keys.getLsbD (b.toNat % 16) := by
  simp only [State.pressed, h]

/-- R213 in the mode `full`: up to 15 the value names its key. -/
theorem pressed_of_full_of_le {s : State} {b : Byte} (h : s.cfg.keyIndexMode = .full) (hb : b.toNat ≤ 15) :
    s.pressed b = s.keys.getLsbD b.toNat := by
  simp only [State.pressed, h, if_pos hb]

/-- R213 in the mode `full`: above 15 the value names no key. -/
theorem pressed_of_full_of_gt {s : State} {b : Byte} (h : s.cfg.keyIndexMode = .full) (hb : 15 < b.toNat) :
    s.pressed b = false := by
  simp only [State.pressed, h, if_neg (Nat.not_le_of_gt hb)]

/-! ### What the instructions do -/

/-- R210, R211: SKP skips when the level of the key is 1 and SKNP when it is 0. -/
theorem exec_keySkips_of_pressed {s : State} {x : Reg} {level : Bool} (h : s.pressed s.v[x] = level) :
    exec (.skp x) s = .next { s with pc := if level = true then s.pc + 4 else s.pc + 2 } ∧
      exec (.sknp x) s = .next { s with pc := if level = false then s.pc + 4 else s.pc + 2 } := by
  subst h
  exact ⟨rfl, congrArg Host.Outcome.next (skipIf_eq_of_iff (Bool.not_eq_true' _).to_iff s)⟩

/-- R212. -/
theorem exec_ldVxDt (x : Reg) (s : State) :
    exec (.ldVxDt x) s = .next { s with v := s.v.set x s.dt, pc := s.pc + 2 } :=
  congrArg Host.Outcome.next (setReg_advance s x rfl)

/-- R216. -/
theorem exec_ldDtVx (x : Reg) (s : State) : exec (.ldDtVx x) s = .next { s with dt := s.v[x], pc := s.pc + 2 } := rfl

/-- R217. -/
theorem exec_ldStVx (x : Reg) (s : State) : exec (.ldStVx x) s = .next { s with st := s.v[x], pc := s.pc + 2 } := rfl

/-! ### The statements -/

/-- Settles O31: both rows are read as their instruction, and each clause is the two skips at the level that its key
index mode gives the value in Vx; above 15 in the mode `full` that level is 0. -/
theorem keySkipsReadTheLevel : Obligations.KeySkipsReadTheLevel := by
  unfold Obligations.KeySkipsReadTheLevel
  refine ⟨reads_skp, reads_sknp, fun x s => ⟨fun hmode => ?lowNibble, fun hmode hle => ?full, fun hmode hgt => ?noKey⟩⟩
  case lowNibble => exact exec_keySkips_of_pressed (pressed_of_lowNibble hmode _)
  case full => exact exec_keySkips_of_pressed (pressed_of_full_of_le hmode hle)
  case noKey => exact exec_keySkips_of_pressed (pressed_of_full_of_gt hmode hgt)

/-- Settles O34: each of the three rows is read as its instruction, which is one write of Vx, DT or ST. -/
theorem timerMovesWriteTheirDestination : Obligations.TimerMovesWriteTheirDestination := by
  unfold Obligations.TimerMovesWriteTheirDestination
  exact ⟨⟨reads_ldVxDt, exec_ldVxDt⟩, ⟨reads_ldDtVx, exec_ldDtVx⟩, reads_ldStVx, exec_ldStVx⟩

end Sys2Proof.Machine
end

section
/-! PROOFS. The encoder and the decoder of 30_encoding.md as inverses of each other: the fields of an encoded word are
the operands it was built from, and a word is the encoding of its own fields. The unknown words of R92 are what is left. -/

namespace Sys2Proof.Machine

/-! ### The fields of an encoded word -/

@[simp] theorem fieldNNN_encodeA (c : BitVec 4) (nnn : Addr12) : fieldNNN (encodeA c nnn) = nnn := by
  apply BitVec.eq_of_toNat_eq
  rw [fieldNNN_toNat, encodeA_toNat]
  omega

@[simp] theorem fieldX_encodeK (c : BitVec 4) (x : Reg) (kk : Byte) : fieldX (encodeK c x kk) = x := by
  apply Fin.ext
  rw [fieldX_val, encodeK_toNat]
  omega

@[simp] theorem fieldKK_encodeK (c : BitVec 4) (x : Reg) (kk : Byte) : fieldKK (encodeK c x kk) = kk := by
  apply BitVec.eq_of_toNat_eq
  rw [fieldKK_toNat, encodeK_toNat]
  omega

@[simp] theorem fieldX_encodeR (c : BitVec 4) (x y : Reg) (n : BitVec 4) : fieldX (encodeR c x y n) = x := by
  apply Fin.ext
  rw [fieldX_val, encodeR_toNat]
  omega

@[simp] theorem fieldY_encodeR (c : BitVec 4) (x y : Reg) (n : BitVec 4) : fieldY (encodeR c x y n) = y := by
  apply Fin.ext
  rw [fieldY_val, encodeR_toNat]
  omega

@[simp] theorem fieldN_encodeR (c : BitVec 4) (x y : Reg) (n : BitVec 4) : fieldN (encodeR c x y n) = n.toNat := by
  rw [fieldN_eq, encodeR_toNat]
  omega

/-! ### A word is the encoding of its fields (R83) -/

theorem encodeA_fields {w : Word} {c : Nat} (hc : fieldC w = c) : encodeA (BitVec.ofNat 4 c) (fieldNNN w) = w := by
  apply BitVec.eq_of_toNat_eq
  rw [fieldC_eq] at hc
  rw [encodeA_toNat, fieldNNN_toNat, BitVec.toNat_ofNat]
  omega

theorem encodeK_fields {w : Word} {c kk : Nat} (hc : fieldC w = c) (hkk : (fieldKK w).toNat = kk) :
    encodeK (BitVec.ofNat 4 c) (fieldX w) (BitVec.ofNat 8 kk) = w := by
  apply BitVec.eq_of_toNat_eq
  rw [fieldC_eq] at hc
  rw [fieldKK_toNat] at hkk
  rw [encodeK_toNat, fieldX_val, BitVec.toNat_ofNat, BitVec.toNat_ofNat]
  omega

theorem encodeR_fields {w : Word} {c n : Nat} (hc : fieldC w = c) (hn : fieldN w = n) :
    encodeR (BitVec.ofNat 4 c) (fieldX w) (fieldY w) (BitVec.ofNat 4 n) = w := by
  apply BitVec.eq_of_toNat_eq
  rw [fieldC_eq] at hc
  rw [fieldN_eq] at hn
  rw [encodeR_toNat, fieldX_val, fieldY_val, BitVec.toNat_ofNat, BitVec.toNat_ofNat]
  omega

/-- Format K with its immediate byte. -/
theorem encodeK_immediate {w : Word} {c : Nat} (hc : fieldC w = c) :
    encodeK (BitVec.ofNat 4 c) (fieldX w) (fieldKK w) = w := by
  simpa using encodeK_fields hc rfl

/-! ### Decoding an encoded instruction -/

/-- The word of an instruction is read through its own row, which gives back the operands. -/
theorem decode_encode_of_reads {mask value : Word} {mk : Word → Instr} {i : Instr} (hreads : Reads mask value mk)
    (hrow : encode i &&& mask = value) (hmk : mk (encode i) = i := by simp [encode]) : decode (encode i) = .ok i := by
  rw [hreads _ hrow, hmk]

open Sys2Proof.Laws in
theorem decode_encode {i : Instr} (hwf : i.wellFormed = true) : decode (encode i) = .ok i := by
  cases i with
  | cls => rfl
  | ret => rfl
  | jp => exact decode_encode_of_reads reads_jp (EncodedRow.jp _).1
  | call => exact decode_encode_of_reads reads_call (EncodedRow.call _).1
  | seImm => exact decode_encode_of_reads reads_seImm (EncodedRow.seImm _ _).1
  | sneImm => exact decode_encode_of_reads reads_sneImm (EncodedRow.sneImm _ _).1
  | seReg => exact decode_encode_of_reads reads_seReg (EncodedRow.seReg _ _).1
  | ldImm => exact decode_encode_of_reads reads_ldImm (EncodedRow.ldImm _ _).1
  | addImm => exact decode_encode_of_reads reads_addImm (EncodedRow.addImm _ _).1
  | ldReg => exact decode_encode_of_reads reads_ldReg (EncodedRow.ldReg _ _).1
  | orReg => exact decode_encode_of_reads reads_orReg (EncodedRow.orReg _ _).1
  | andReg => exact decode_encode_of_reads reads_andReg (EncodedRow.andReg _ _).1
  | xorReg => exact decode_encode_of_reads reads_xorReg (EncodedRow.xorReg _ _).1
  | addReg => exact decode_encode_of_reads reads_addReg (EncodedRow.addReg _ _).1
  | subReg => exact decode_encode_of_reads reads_subReg (EncodedRow.subReg _ _).1
  | shr => exact decode_encode_of_reads reads_shr (EncodedRow.shr _ _).1
  | subnReg => exact decode_encode_of_reads reads_subnReg (EncodedRow.subnReg _ _).1
  | shl => exact decode_encode_of_reads reads_shl (EncodedRow.shl _ _).1
  | sneReg => exact decode_encode_of_reads reads_sneReg (EncodedRow.sneReg _ _).1
  | ldI => exact decode_encode_of_reads reads_ldI (EncodedRow.ldI _).1
  | jpV0 => exact decode_encode_of_reads reads_jpV0 (EncodedRow.jpV0 _).1
  | rnd => exact decode_encode_of_reads reads_rnd (EncodedRow.rnd _ _).1
  | drw x y n =>
    have hn : n < 16 := of_decide_eq_true hwf
    exact decode_encode_of_reads reads_drw (EncodedRow.drw _ _ _).1 (by simp [encode, hn])
  | skp => exact decode_encode_of_reads reads_skp (EncodedRow.skp _).1
  | sknp => exact decode_encode_of_reads reads_sknp (EncodedRow.sknp _).1
  | ldVxDt => exact decode_encode_of_reads reads_ldVxDt (EncodedRow.ldVxDt _).1
  | ldVxK => exact decode_encode_of_reads reads_ldVxK (EncodedRow.ldVxK _).1
  | ldDtVx => exact decode_encode_of_reads reads_ldDtVx (EncodedRow.ldDtVx _).1
  | ldStVx => exact decode_encode_of_reads reads_ldStVx (EncodedRow.ldStVx _).1
  | addIVx => exact decode_encode_of_reads reads_addIVx (EncodedRow.addIVx _).1
  | ldFVx => exact decode_encode_of_reads reads_ldFVx (EncodedRow.ldFVx _).1
  | ldBVx => exact decode_encode_of_reads reads_ldBVx (EncodedRow.ldBVx _).1
  | storeRegs => exact decode_encode_of_reads reads_storeRegs (EncodedRow.storeRegs _).1
  | loadRegs => exact decode_encode_of_reads reads_loadRegs (EncodedRow.loadRegs _).1

/-! ### Encoding a decoded word -/

/-- Each branch of the decoder has fixed the fields that are no operand, so the operands fill the rest of the word. -/
theorem encode_of_decode {w : Word} {i : Instr} (h : decode w = .ok i) : encode i = w := by
  unfold decode at h
  split at h
  case h_1 => -- category 0: the whole word
    split_ifs at h with hcls hret
    · cases h; exact hcls.symm
    · cases h; exact hret.symm
  case h_6 hc | h_10 hc => -- categories 5 and 9: function code 0
    split_ifs at h with hn
    cases h
    exact encodeR_fields hc hn
  case h_9 hc => -- category 8: by function code
    split at h <;> cases h <;> exact encodeR_fields hc ‹_›
  case h_14 hc => -- category D: the row count is an operand
    cases h
    exact encodeR_fields hc rfl
  case h_15 hc | h_16 hc => -- categories E and F: by function byte
    split at h <;> cases h <;> exact encodeK_fields hc ‹_›
  case h_17 => cases h -- no other category is read
  case h_2 hc | h_3 hc | h_11 hc | h_12 hc => -- the categories of format A
    cases h
    exact encodeA_fields hc
  case h_4 hc | h_5 hc | h_7 hc | h_8 hc | h_13 hc => -- the categories of format K
    cases h
    exact encodeK_immediate hc

/-- R84: the one checked operand, the row count, is read from four bits. -/
theorem wellFormed_of_decode {w : Word} {i : Instr} (h : decode w = .ok i) : i.wellFormed = true := by
  cases i with
  | drw x y n =>
    obtain ⟨-, -, rfl⟩ := Instr.drw.inj (Except.ok.inj ((reads_drw w (and_row_mask_of_decode h)).symm.trans h))
    rw [fieldN_eq]
    exact decide_eq_true (Nat.mod_lt _ (by decide))
  | _ => rfl

/-! ### The words that are no instruction (R92) -/

/-- The decoder reports the word it was given. -/
theorem decode_error {w : Word} {e : DecodeError} (h : decode w = .error e) : e = .unknownOpcode w := by
  unfold decode at h
  split at h
  case h_1 => split_ifs at h; exact (Except.error.inj h).symm
  case h_6 | h_10 => split_ifs at h; exact (Except.error.inj h).symm
  case h_9 | h_15 | h_16 => split at h <;> cases h; rfl
  case h_17 => exact (Except.error.inj h).symm
  all_goals cases h

/-- A word is reported exactly when it matches no row of the table. -/
theorem decode_eq_error_iff {w : Word} :
    decode w = .error (.unknownOpcode w) ↔ ∀ r ∈ opcodeTable, w &&& r.mask ≠ r.value := by
  constructor
  · intro h r hr hw
    obtain ⟨i, hi, -⟩ := rowDecodes_of_mem_opcodeTable r hr w hw
    rw [h] at hi
    cases hi
  · intro h
    cases hd : decode w with
    | ok i => exact absurd (and_row_mask_of_decode hd) (h _ (row_mem_opcodeTable i))
    | error e => rw [decode_error hd]

/-! ### The statements -/

/-- Settles O2: the word of an instruction matches the instruction's row, and the row's fields are its operands. -/
theorem decodeInvertsEncode : Obligations.DecodeInvertsEncode := by
  unfold Obligations.DecodeInvertsEncode
  exact fun _ => decode_encode

/-- Settles O3: a word that is read is built of the fields its branch of the decoder fixed and of those it read. -/
theorem encodeInvertsDecode : Obligations.EncodeInvertsDecode := by
  unfold Obligations.EncodeInvertsDecode
  exact fun _ _ h => ⟨encode_of_decode h, wellFormed_of_decode h⟩

/-- Settles O5: by category, and within a category by what its branch of the decoder looks at. -/
theorem unknownWordsAreTheListed : Obligations.UnknownWordsAreTheListed := by
  unfold Obligations.UnknownWordsAreTheListed
  intro w
  have hlt : fieldC w < 16 := by rw [fieldC_eq]; omega
  rw [← fieldC_eq, ← fieldN_eq, ← fieldKK_toNat]
  unfold decode
  split
  case h_1 hc => -- category 0: the whole word
    split_ifs with hcls hret
    · subst hcls; decide
    · subst hret; decide
    · simp_all [BitVec.toNat_eq]
  case h_6 hc | h_10 hc => -- categories 5 and 9: the function code
    split_ifs with hn <;> simp [hc, hn]
  case h_9 hc => -- category 8: the function code
    have hn : fieldN w < 16 := by rw [fieldN_eq]; omega
    split
    case h_10 => simp_all; omega
    all_goals simp_all
  case h_15 hc | h_16 hc => -- categories E and F: the function byte
    split <;> simp_all
  case h_17 => simp_all; omega -- there are sixteen categories
  all_goals simp [*] -- the categories that are one instruction each

/-- Settles O1: each word is a literal, and the decoder runs on it. -/
theorem sampleWordsDecode : Obligations.SampleWordsDecode := by
  unfold Obligations.SampleWordsDecode
  decide

end Sys2Proof.Machine
end

section
/-! PROOFS. Call and return of 41_control_flow.md by the depth of the stack: below 16 levels a CALL pushes, above 0 a
RET pops, at the bound each reports its error, and above 16 neither has a meaning. -/

namespace Sys2Proof.Machine

/-! ### What the instructions do -/

/-- R123. -/
theorem exec_jpV0 (nnn : Addr12) (s : State) :
    exec (.jpV0 nnn) s = .next { s with pc := BitVec.ofNat 16 (nnn.toNat + s.v[0].toNat) } := by
  have hsum : zext12 nnn + (s.reg 0).setWidth 16 = BitVec.ofNat 16 (nnn.toNat + s.v[0].toNat) := by
    rw [zext12_eq, BitVec.ofNat_add, BitVec.ofNat_toNat 16 s.v[0]]
    rfl
  rw [← hsum]
  rfl

/-- R122 with a free entry. -/
theorem exec_call_of_lt (nnn : Addr12) {s : State} (h : s.sp.toNat < 16) :
    exec (.call nnn) s =
      .next { s with
        stack := s.stack.set s.sp.toNat (s.pc + 2) h
        sp := s.sp + 1
        pc := BitVec.ofNat 16 nnn.toNat } := by
  have hne : s.sp ≠ 16 := fun e => by simp [e] at h
  change execCall nnn s = _
  rw [execCall, if_neg hne, push_of_lt h, ← zext12_eq]
  rfl

/-- R238. -/
theorem exec_call_of_full (nnn : Addr12) {s : State} (h : s.sp = 16) :
    exec (.call nnn) s = .next (s.raise .stackOverflow (encode (.call nnn))) :=
  if_pos h

/-- Log entry 6. -/
theorem exec_call_of_gt (nnn : Addr12) {s : State} (h : 16 < s.sp.toNat) :
    exec (.call nnn) s = .fault .stackPointerIllegal := by
  have hne : s.sp ≠ 16 := fun e => by simp [e] at h
  change execCall nnn s = _
  rw [execCall, if_neg hne, State.push, if_neg (by omega)]

/-- R120 with an entry to return to. -/
theorem exec_ret_of_pos {s : State} (h0 : 0 < s.sp.toNat) (h : s.sp.toNat - 1 < 16) :
    exec .ret s = .next { s with sp := s.sp - 1, pc := s.stack[s.sp.toNat - 1] } := by
  have hne : s.sp ≠ 0 := fun e => by simp [e] at h0
  change execRet s = _
  rw [execRet, if_neg hne, pop_of_lt h0 h]
  rfl

/-- R239. -/
theorem exec_ret_of_empty {s : State} (h : s.sp = 0) :
    exec .ret s = .next (s.raise .stackUnderflow (encode .ret)) :=
  if_pos h

/-- Log entry 6. -/
theorem exec_ret_of_gt {s : State} (h : 16 < s.sp.toNat) : exec .ret s = .fault .stackPointerIllegal := by
  have hne : s.sp ≠ 0 := fun e => by simp [e] at h
  have hpop : s.stack[(s.sp - 1).toNat]? = none := by
    rw [sp_sub_one (by omega)]
    exact Vector.getElem?_eq_none (by omega)
  change execRet s = _
  rw [execRet, if_neg hne, State.pop, hpop]

/-- Every instruction answers a next state when SP is legal: CALL and RET alone can stop, above 16 levels. -/
theorem exec_completes (i : Instr) {s : State} (h : s.SpLegal) : ∃ t, exec i s = .next t := by
  cases i
  case call nnn =>
    rcases Nat.lt_or_eq_of_le h with hlt | heq
    · exact ⟨_, exec_call_of_lt nnn hlt⟩
    · exact ⟨_, exec_call_of_full nnn (BitVec.eq_of_toNat_eq heq)⟩
  case ret =>
    rcases Nat.eq_zero_or_pos s.sp.toNat with h0 | hpos
    · exact ⟨_, exec_ret_of_empty (BitVec.eq_of_toNat_eq h0)⟩
    · exact ⟨_, exec_ret_of_pos hpos (by omega)⟩
  all_goals exact ⟨_, rfl⟩

/-! ### The statements -/

/-- Settles O13: the row is read as JP V0, which writes PC and keeps every other field. -/
theorem jumpV0KeepsSixteenBits : Obligations.JumpV0KeepsSixteenBits := by
  unfold Obligations.JumpV0KeepsSixteenBits
  exact ⟨reads_jpV0, exec_jpV0⟩

/-- Settles O14: the recorded word is the encoding of the CALL, and that is the fetched word. -/
theorem callPushesOrOverflows : Obligations.CallPushesOrOverflows := by
  unfold Obligations.CallPushesOrOverflows
  refine ⟨reads_call, fun nnn _ h => exec_call_of_lt nnn h, fun w s hw hsp => ?_⟩
  rw [exec_call_of_full _ hsp, encode_of_decode (reads_call w hw)]
  rfl

/-- Settles O15: above the empty stack RET pops, and on it the recorded word is the one word of its row. -/
theorem returnPopsOrUnderflows : Obligations.ReturnPopsOrUnderflows := by
  unfold Obligations.ReturnPopsOrUnderflows
  exact ⟨reads_ret, fun _ h0 h => exec_ret_of_pos h0 h, fun _ h => exec_ret_of_empty h⟩

/-- Settles O16: above 16 there is no entry to push to or to pop. -/
theorem illegalStackPointerStops : Obligations.IllegalStackPointerStops := by
  unfold Obligations.IllegalStackPointerStops
  exact fun _ h => ⟨exec_ret_of_gt h, fun nnn => exec_call_of_gt nnn h⟩

/-- Settles O17: the entry that RET pops is the one that CALL has just pushed. -/
theorem callThenReturnRoundTrip : Obligations.CallThenReturnRoundTrip := by
  unfold Obligations.CallThenReturnRoundTrip
  intro nnn s t u hlt hcall hstack hsp
  rw [exec_call_of_lt nnn hlt] at hcall
  cases hcall
  have hdepth : u.sp.toNat = s.sp.toNat + 1 := by
    rw [hsp]
    simp only [BitVec.toNat_add, BitVec.ofNat_eq_ofNat, BitVec.toNat_ofNat]
    omega
  refine ⟨_, exec_ret_of_pos (by omega) (by omega), ?pc, ?sp, fun k hk => ?entries⟩
  case pc => simp [hdepth, hstack]
  case sp => simp [hsp]
  case entries => simp [hstack, Ne.symm hk]

end Sys2Proof.Machine
end

section
/-! PROOFS. One step of the machine, said once: which transaction it applies and what that does (00_scope.md R13,
40_execution_cycle.md R100). Every statement about a step follows by these cases. -/

namespace Sys2Proof.Machine

/-- The state in which the next transaction is applied: that transaction has left the schedule. -/
abbrev State.moveOn (s : State) : State := { s with schedule := s.schedule.tail }

/-! ### STEP -/

theorem NextIsStep.eq_moveOn {s s0 : State} {rand : Option Byte} (h : NextIsStep s rand s0) : s0 = s.moveOn := by
  rcases h with ⟨hs, -, hs0⟩ | ⟨b, rest, hs, -, rfl⟩
  · have htail : s.schedule = s.schedule.tail := by simp [hs]
    exact hs0.trans (congrArg (fun l => { s with schedule := l }) htail)
  · simp [hs]

theorem step_of_nextIsStep {s s0 : State} {rand : Option Byte} (h : NextIsStep s rand s0) :
    step s = s0.stepWith rand := by
  rcases h with ⟨hs, rfl, rfl⟩ | ⟨b, rest, hs, rfl, rfl⟩
  · exact step_nil hs
  · exact step_cons hs

/-- Every next state of a STEP, by the run state it starts in (R100). -/
theorem stepWith_next {s t : State} {rand : Option Byte} (h : s.stepWith rand = .next t) :
    (s.run = .faulted ∧ t = s) ∨ (∃ r, s.run = .waiting r ∧ t = s.waitRetry r) ∨
      (s.run = .running ∧ State.fetchExecute { s with rand := rand } = .next t) := by
  obtain hrun | ⟨r, hrun⟩ | hrun : s.run = .faulted ∨ (∃ r, s.run = .waiting r) ∨ s.run = .running := by
    cases s.run <;> simp
  · rw [stepWith_faulted hrun] at h
    exact .inl ⟨hrun, (Host.Outcome.next.inj h).symm⟩
  · rw [stepWith_waiting hrun] at h
    exact .inr (.inl ⟨r, hrun, (Host.Outcome.next.inj h).symm⟩)
  · exact .inr (.inr ⟨hrun, (stepWith_running hrun).symm.trans h⟩)

/-- Every next state of the part of STEP after the run-state checks (R103, R104, R236). -/
theorem fetchExecute_next {s t : State} (h : s.fetchExecute = .next t) :
    (∃ i, decode s.fetchWord = .ok i ∧ exec i s = .next t) ∨
      (decode s.fetchWord = .error (.unknownOpcode s.fetchWord) ∧ t = s.raise .unknownOpcode s.fetchWord) := by
  cases hd : decode s.fetchWord with
  | ok i => exact .inl ⟨i, rfl, (fetchExecute_ok hd).symm.trans h⟩
  | error e =>
    rw [fetchExecute_error hd] at h
    cases h
    exact .inr ⟨by rw [decode_error hd], rfl⟩

/-! ### The next transaction -/

/-- Every next state of a step, by the transaction of the host (R13). -/
theorem step_next {s t : State} (h : step s = .next t) :
    (∃ rand, NextIsStep s rand s.moveOn ∧ s.moveOn.stepWith rand = .next t) ∨
      (s.schedule.head? = some .reset ∧ t = s.moveOn.hardReset) ∨
      (∃ start bytes, s.schedule.head? = some (.load start bytes) ∧ t = s.moveOn.load start bytes) ∨
      (∃ keys, s.schedule.head? = some (.keyWrite keys) ∧ t = s.moveOn.keyWrite keys) ∨
      (s.schedule.head? = some .tick ∧ t = s.moveOn.tick) ∨
      ((s.schedule.head? = some .fbRead ∨ s.schedule.head? = some .debugRead) ∧ t = s.moveOn) := by
  cases hs : s.schedule with
  | nil =>
    have hstep : NextIsStep s none s := .inl ⟨hs, rfl, rfl⟩
    rw [step_of_nextIsStep hstep, hstep.eq_moveOn] at h
    exact .inl ⟨none, hstep.eq_moveOn ▸ hstep, h⟩
  | cons tr rest =>
    have hmove : { s with schedule := rest } = s.moveOn := by simp [hs]
    rw [step_cons hs, hmove] at h
    cases tr with
    | step b => exact .inl ⟨some b, .inr ⟨b, rest, hs, rfl, hmove.symm⟩, h⟩
    | reset => cases h; simp
    | load start bytes => cases h; simp
    | keyWrite keys => cases h; simp
    | tick => cases h; simp
    | fbRead => cases h; simp
    | debugRead => cases h; simp

end Sys2Proof.Machine
end

section
/-! PROOFS. The invariant of 10_state.md R47: RESET meets it, every operation of a step keeps it, and from a state that
meets it every step answers. -/

namespace Sys2Proof.Machine

/-! ### What keeps the invariant -/

/-- R234: outside FAULTED there is no error on record. -/
theorem errKind_of_not_faulted {s : State} (h : s.ErrLegal) (hrun : s.run ≠ .faulted) : s.err.kind = .none := by
  by_contra hk
  exact hrun (h.1.2 hk)

/-- A move between run states other than FAULTED keeps the record legal. -/
theorem errLegal_of_not_faulted {s t : State} (h : s.ErrLegal) (hs : s.run ≠ .faulted) (ht : t.run ≠ .faulted)
    (herr : t.err = s.err) : t.ErrLegal := by
  have hk := errKind_of_not_faulted h hs
  unfold State.ErrLegal
  rw [herr]
  exact ⟨⟨fun e => absurd e ht, fun e => absurd hk e⟩, h.2⟩

/-- R234: the entry of an error the model raises. -/
theorem fail_inv {s : State} (h : s.Inv) {kind : ErrKind} (hnone : kind ≠ .none) (hmem : kind ≠ .memoryOutOfRange)
    (pc w : Word) : (s.fail kind pc w).Inv := by
  obtain ⟨hm, hsp, hi, -⟩ := h
  exact ⟨hm, hsp, hi, ⟨fun _ => hnone, fun _ => rfl⟩, fun e => absurd e hnone, hmem⟩

theorem reset_inv (cfg : Config) : State.Inv { State.reset with cfg := cfg } := by
  refine ⟨?mem, ?sp, ?index, ?err⟩
  case mem => exact ⟨.nil, fun _ h => by cases h⟩
  case sp => exact Nat.zero_le _
  case index => exact fun _ => Nat.zero_lt_succ _
  case err => exact ⟨by simp [State.reset, ErrRecord.empty], fun _ => rfl, by simp [State.reset, ErrRecord.empty]⟩

theorem load_inv {s : State} (h : s.Inv) (start : Nat) (bytes : List Byte) : (s.load start bytes).Inv := by
  unfold State.load
  split
  · exact fail_inv h (by decide) (by decide) _ _
  · obtain ⟨hm, hsp, hi, herr⟩ := h
    exact ⟨memWrite_memLegal hm start bytes, by simpa [State.SpLegal] using hsp, by simpa [State.IndexLegal] using hi,
      by simpa [State.ErrLegal] using herr⟩

theorem waitRetry_inv {s : State} {r : Reg} (h : s.Inv) (hrun : s.run = .waiting r) : (s.waitRetry r).Inv := by
  obtain ⟨hm, hsp, hi, herr⟩ := h
  have hs : s.run ≠ .faulted := by simp [hrun]
  unfold State.waitRetry
  split
  · exact ⟨hm, hsp, hi, herr⟩
  · exact ⟨hm, hsp, hi, errLegal_of_not_faulted herr hs (by simp) rfl⟩

/-- R33: a write of I keeps it within `I_WIDTH`. -/
theorem maskIndex_legal {w : IndexWidth} (hw : w = .w12) (n : Nat) : (maskIndex w n).toNat < 4096 :=
  hw ▸ maskIndex_w12_lt n

/-- Every instruction executed in RUNNING keeps the invariant: CALL and RET move SP inside its range or raise their
error, the others leave SP and ERR and write I and MEM through the operations that keep these legal. -/
theorem exec_inv {i : Instr} {s t : State} (h : s.Inv) (hrun : s.run = .running) (he : exec i s = .next t) : t.Inv := by
  obtain ⟨hm, hsp, hi, herr⟩ := id h
  by_cases hret : i = .ret
  · subst hret
    rcases execRet_next he with ⟨-, rfl⟩ | ⟨w, -, hne, rfl⟩
    · exact fail_inv h (by decide) (by decide) _ _
    · have hpos : 0 < s.sp.toNat := Nat.pos_of_ne_zero fun e => hne (BitVec.eq_of_toNat_eq e)
      exact ⟨hm, by simp only [State.SpLegal, sp_sub_one hpos] at hsp ⊢; omega, hi, herr⟩
  by_cases hcall : ∃ nnn, i = .call nnn
  · obtain ⟨nnn, rfl⟩ := hcall
    rcases execCall_next he with ⟨-, rfl⟩ | ⟨hlt, rfl⟩
    · exact fail_inv h (by decide) (by decide) _ _
    · exact ⟨hm, by simp only [State.SpLegal, BitVec.toNat_add, BitVec.ofNat_eq_ofNat, BitVec.toNat_ofNat]; omega, hi,
        herr⟩
  obtain ⟨hsp', herr', hcfg, hrun', hi', hm'⟩ := exec_next_plain he hret fun nnn e => hcall ⟨nnn, e⟩
  refine ⟨?mem, ?sp, ?index, ?err⟩
  case mem =>
    rcases hm' with hm' | ⟨a, bs, hm'⟩
    · simpa only [State.MemLegal, hm', hcfg] using hm
    · simpa only [State.MemLegal, hm', hcfg, memWrite_cfg] using memWrite_memLegal hm a bs
  case sp => rwa [State.SpLegal, hsp']
  case index =>
    intro hw
    rw [hcfg] at hw
    rcases hi' with hi' | ⟨n, hi'⟩
    · exact hi' ▸ hi hw
    · exact hi' ▸ maskIndex_legal hw n
  case err =>
    refine errLegal_of_not_faulted herr (by simp [hrun]) ?_ herr'
    rcases hrun' with hrun' | ⟨x, hrun'⟩ <;> simp [hrun', hrun]

theorem fetchExecute_inv {s t : State} (h : s.Inv) (hrun : s.run = .running) (he : s.fetchExecute = .next t) :
    t.Inv := by
  rcases fetchExecute_next he with ⟨i, -, hi⟩ | ⟨-, rfl⟩
  · exact exec_inv h hrun hi
  · exact fail_inv h (by decide) (by decide) _ _

theorem stepWith_inv {s t : State} {rand : Option Byte} (h : s.Inv) (he : s.stepWith rand = .next t) : t.Inv := by
  rcases stepWith_next he with ⟨-, rfl⟩ | ⟨r, hrun, rfl⟩ | ⟨hrun, hf⟩
  · exact h
  · exact waitRetry_inv h hrun
  · exact fetchExecute_inv (s := { s with rand := rand }) h hrun hf

theorem step_inv {s t : State} (h : s.Inv) (hstep : step s = .next t) : t.Inv := by
  have hmove : s.moveOn.Inv := h
  rcases step_next hstep with ⟨rand, -, he⟩ | ⟨-, rfl⟩ | ⟨start, bytes, -, rfl⟩ | ⟨keys, -, rfl⟩ | ⟨-, rfl⟩ | ⟨-, rfl⟩
  · exact stepWith_inv hmove he
  · exact reset_inv s.cfg
  · exact load_inv hmove start bytes
  · exact hmove
  · exact hmove
  · exact hmove

/-! ### Progress -/

theorem stepWith_completes {s : State} (rand : Option Byte) (h : s.SpLegal) : ∃ t, s.stepWith rand = .next t := by
  cases hrun : s.run with
  | faulted => exact ⟨_, stepWith_faulted hrun⟩
  | waiting r => exact ⟨_, stepWith_waiting hrun⟩
  | running =>
    rw [stepWith_running hrun]
    cases hd : decode { s with rand := rand }.fetchWord with
    | ok i =>
      rw [fetchExecute_ok hd]
      exact exec_completes i h
    | error e => exact ⟨_, fetchExecute_error hd⟩

theorem step_completes {s : State} (h : s.SpLegal) : ∃ t, step s = .next t := by
  cases hs : s.schedule with
  | nil =>
    rw [step_nil hs]
    exact stepWith_completes none h
  | cons tr rest =>
    rw [step_cons hs]
    cases tr with
    | step b => exact stepWith_completes (some b) h
    | _ => exact ⟨_, rfl⟩

/-- A run whose first step answers goes on from there. -/
theorem run_succ_of_next {M : Host.Core} {s t : M.State} (k : Nat) (h : M.step s = .next t) :
    M.run (k + 1) s = M.run k t := by
  simp only [Host.Core.run, h]

/-- Every number of steps answers and keeps the invariant. -/
theorem run_completes (k : Nat) {s : State} (h : s.Inv) : ∃ t, Host.Core.run core k s = .next t ∧ t.Inv := by
  induction k generalizing s with
  | zero => exact ⟨s, rfl, h⟩
  | succ k ih =>
    obtain ⟨-, hsp, -, -⟩ := id h
    obtain ⟨s', hstep⟩ := step_completes hsp
    obtain ⟨t, hrun, ht⟩ := ih (step_inv h hstep)
    exact ⟨t, (run_succ_of_next k hstep).trans hrun, ht⟩

/-! ### The statements -/

/-- Settles O48: the list of changed bytes is empty and no error is on record. -/
theorem resetStateIsLegal : Obligations.ResetStateIsLegal := by
  unfold Obligations.ResetStateIsLegal
  exact reset_inv

/-- Settles O49, by the transaction of the step, and for a STEP by the run state and the instruction. -/
theorem stepKeepsLegalState : Obligations.StepKeepsLegalState := by
  unfold Obligations.StepKeepsLegalState
  exact fun _ _ h => step_inv h

/-- Settles O50, by induction on the number of steps: a legal SP is all that a step needs to answer, and the step keeps
the state legal. -/
theorem legalStepAlwaysCompletes : Obligations.LegalStepAlwaysCompletes := by
  unfold Obligations.LegalStepAlwaysCompletes
  exact fun k _ => run_completes k

end Sys2Proof.Machine
end

section
/-! PROOFS. The register blocks of 43_index_memory.md and the byte array of 20_memory.md: a stored block is read back,
by Fx65 and by the fetch, a canonical list is the only one of its contents, and the font is where Fx29 points. -/

namespace Sys2Proof.Machine

/-! ### Reads -/

/-- R62: two addresses equal modulo 4096 are one. -/
theorem readByte_of_mod_eq (s : State) {a b : Nat} (h : a % 4096 = b % 4096) : s.readByte a = s.readByte b := by
  rw [← readByte_mod s a, h, readByte_mod]

/-! ### What the block instructions do -/

/-- R176. -/
theorem exec_storeRegs (x : Reg) (s : State) :
    exec (.storeRegs x) s = .next { s with mem := (s.memWrite s.i.toNat (s.regBlock x)).mem, pc := s.pc + 2 } :=
  congrArg Host.Outcome.next (memWrite_advance ..)

/-- R176: a register of the stored block is read back at its place. -/
theorem readByte_storeBlock {s : State} (h : s.MemLegal) {x k : Reg} (hk : k ≤ x) :
    (s.memWrite s.i.toNat (s.regBlock x)).readByte (s.i.toNat + k.val) = s.v[k] := by
  have hlen := regBlock_length s x
  have hk' : k.val < (s.regBlock x).length := hlen ▸ Nat.lt_succ_of_le hk
  rw [readByte_memWrite_same h _ _ (by omega) hk', regBlock_getElem]
  rfl

/-- R176: a byte outside the stored block stays. -/
theorem readByte_storeBlock_other {s : State} (h : s.MemLegal) {x : Reg} {a : Nat}
    (ha : ∀ k : Reg, k ≤ x → (s.i.toNat + k.val) % 4096 ≠ a % 4096) :
    (s.memWrite s.i.toNat (s.regBlock x)).readByte a = s.readByte a := by
  refine readByte_memWrite_other h _ _ _ fun k hk => ?_
  rw [regBlock_length] at hk
  exact ha ⟨k, by omega⟩ (Nat.le_of_lt_succ hk)

/-- R178. -/
theorem exec_loadRegs (x : Reg) (s : State) :
    exec (.loadRegs x) s =
      .next { s with v := (s.setRegsFrom 0 (s.memRead s.i.toNat (x.val + 1))).v, pc := s.pc + 2 } := by
  change Host.Outcome.next (State.advance (s.setRegsFrom 0 _)) = _
  rw [setRegsFrom_eq]
  rfl

/-- R178: the registers up to Vx are the bytes at I and on, the others stay. -/
theorem getElem_loadBlock (s : State) (x k : Reg) :
    (s.setRegsFrom 0 (s.memRead s.i.toNat (x.val + 1))).v[k] =
      if k ≤ x then s.readByte (s.i.toNat + k.val) else s.v[k] := by
  have hlen := memRead_length s s.i.toNat (x.val + 1)
  change (s.setRegsFrom 0 (s.memRead s.i.toNat (x.val + 1))).reg k = _
  rw [reg_setRegsFrom (by omega)]
  simp only [Fin.le_def]
  by_cases hk : k.val ≤ x.val
  · rw [dif_pos (by omega), if_pos hk, memRead_getElem, Nat.sub_zero]
  · rw [dif_neg (by omega), if_neg hk]
    rfl

/-! ### Canonical memories -/

/-- In a canonical memory with a front entry, a memory that lists larger addresses only reads otherwise at the front. -/
theorem Memory.read_front_ne {bg : Nat → Byte} {c : Host.Cell} {m n : Memory} (hm : Memory.wf bg (c :: m))
    (hn : ∀ d ∈ n, c.1 < d.1) : Memory.read bg (c :: m) c.1 ≠ Memory.read bg n c.1 := by
  obtain ⟨-, -, hne, -⟩ := Memory.wf_cons.1 hm
  rw [Memory.read_of_mem hm (by simp), Memory.read_of_lt hn]
  exact hne

/-- The lists agree at the front: the one with the smaller front address would differ there from the other, so the
addresses are equal, and a read there gives both values. -/
theorem Memory.ext {bg : Nat → Byte} {m n : Memory} (hm : Memory.wf bg m) (hn : Memory.wf bg n)
    (h : ∀ a, a < 4096 → Memory.read bg m a = Memory.read bg n a) : m = n := by
  induction m generalizing n with
  | nil =>
    cases n with
    | nil => rfl
    | cons d n =>
      obtain ⟨-, hd, -, -⟩ := Memory.wf_cons.1 hn
      exact absurd (h d.1 hd).symm (Memory.read_front_ne hn (by simp))
  | cons c m ih =>
    obtain ⟨hcm, hc, -, hm'⟩ := Memory.wf_cons.1 hm
    cases n with
    | nil => exact absurd (h c.1 hc) (Memory.read_front_ne hm (by simp))
    | cons d n =>
      obtain ⟨hdn, hd, -, hn'⟩ := Memory.wf_cons.1 hn
      rcases Nat.lt_trichotomy c.1 d.1 with hlt | heq | hgt
      · exact absurd (h c.1 hc) (Memory.read_front_ne hm
          (List.forall_mem_cons.2 ⟨hlt, fun e he => Nat.lt_trans hlt (hdn e he)⟩))
      · have hval : c.2 = d.2 := by
          rw [← Memory.read_of_mem hm (c := c) (by simp), h c.1 hc, heq, Memory.read_of_mem hn (by simp)]
        have hfront : c = d := Prod.ext heq hval
        subst hfront
        congr 1
        refine ih hm' hn' fun a ha => ?_
        by_cases hac : a = c.1
        · rw [hac, Memory.read_of_lt hcm, Memory.read_of_lt hdn]
        · simpa [Memory.read, hac] using h a ha
      · exact absurd (h d.1 hd).symm (Memory.read_front_ne hn
          (List.forall_mem_cons.2 ⟨hgt, fun e he => Nat.lt_trans hgt (hcm e he)⟩))

/-! ### The statements -/

/-- Settles O21: the row is read as Fx55, which is one write of the block V0 to Vx at I. -/
theorem blockStoreWritesRegisters : Obligations.BlockStoreWritesRegisters := by
  unfold Obligations.BlockStoreWritesRegisters
  refine ⟨reads_storeRegs, fun x s hs => ⟨_, exec_storeRegs x s, fun k hk => ?_, fun a ha => ?_⟩⟩
  · rw [← memWrite_eq, readByte_mod]
    exact readByte_storeBlock hs hk
  · rw [← memWrite_eq]
    exact readByte_storeBlock_other hs ha

/-- Settles O22: the row is read as Fx65, which writes the bytes at I and on to the first registers. -/
theorem blockLoadWritesRegisters : Obligations.BlockLoadWritesRegisters := by
  unfold Obligations.BlockLoadWritesRegisters
  refine ⟨reads_loadRegs, fun x s => ⟨_, exec_loadRegs x s, fun k => ?_⟩⟩
  rw [readByte_mod]
  exact getElem_loadBlock s x k

/-- Settles O23: Fx65 reads at the I of the store, where the stored block is read back. -/
theorem blockStoreThenLoadRoundTrip : Obligations.BlockStoreThenLoadRoundTrip := by
  unfold Obligations.BlockStoreThenLoadRoundTrip
  intro x s t u hs hstore hmem hcfg hi
  rw [exec_storeRegs] at hstore
  cases hstore
  refine ⟨_, exec_loadRegs x u, fun k hk => ?_⟩
  have hread : ∀ a, u.readByte a = (s.memWrite s.i.toNat (s.regBlock x)).readByte a :=
    readByte_congr hmem (by simpa using hcfg)
  change (u.setRegsFrom 0 (u.memRead u.i.toNat (x.val + 1))).v[k] = s.v[k]
  rw [getElem_loadBlock, if_pos hk, hread, hi]
  exact readByte_storeBlock hs hk

/-- Settles O24, by the laws of one byte. -/
theorem memoryReadsLastWrite : Obligations.MemoryReadsLastWrite := by
  unfold Obligations.MemoryReadsLastWrite
  intro s a b hs
  refine ⟨(readByte_mod s a).symm, ?same, fun c hc => ?other, writeByte_memLegal hs a b⟩
  case same => rw [readByte_writeByte hs, if_pos rfl]
  case other => rw [readByte_writeByte hs, if_neg hc]

/-- Settles O25, by induction on both lists. -/
theorem canonicalMemoriesAreEqual : Obligations.CanonicalMemoriesAreEqual := by
  unfold Obligations.CanonicalMemoriesAreEqual
  exact fun _ _ _ => Memory.ext

/-- Settles O26: the next PC and the address after it are the places of V0 and V1, modulo 4096. -/
theorem storedWordIsFetchedNext : Obligations.StoredWordIsFetchedNext := by
  unfold Obligations.StoredWordIsFetchedNext
  intro x s t hs hx hpc hstore
  cases hstore
  have hread (k : Reg) (hk : k ≤ x) :
      (s.memWrite s.i.toNat (s.regBlock x)).advance.readByte ((s.pc + 2).toNat + k.val) = s.v[k] := by
    have haddr : ((s.pc + 2).toNat + k.val) % 4096 = (s.i.toNat + k.val) % 4096 := by
      simp only [BitVec.toNat_add, BitVec.ofNat_eq_ofNat, BitVec.toNat_ofNat]
      omega
    rw [readByte_of_mod_eq _ haddr]
    exact readByte_storeBlock hs hk
  have h0 := hread 0 (Fin.zero_le x)
  have h1 := hread 1 hx
  simp only [State.fetchWord, wordOfBytes, advance_pc, memWrite_pc]
  exact congrArg₂ _ h0 h1

/-- Settles O30: the reset memory lists no byte and so reads as the font, and five times a digit fits both widths of I. -/
theorem fontSpriteIsAtDigitTimesFive : Obligations.FontSpriteIsAtDigitTimesFive := by
  unfold Obligations.FontSpriteIsAtDigitTimesFive
  refine ⟨fun cfg d k => ?font, fun d x s hd => ?index⟩
  case font =>
    have hlt : 5 * d.val + k.val < 80 := by omega
    change background cfg.fontRom (wrapAddr (5 * d.val + k.val)) = _
    rw [wrapAddr, Nat.mod_eq_of_lt (by omega), background, dif_pos hlt]
  case index =>
    have hdigit : (if s.cfg.fontDigitMode = .lowNibble then s.v[x].toNat % 16 else s.v[x].toNat) = d.val := by
      rw [hd, Nat.mod_eq_of_lt d.isLt, ite_self]
    have hwidth : d.val * 5 % 2 ^ indexBits s.cfg.iWidth = 5 * d.val := by
      cases s.cfg.iWidth <;> simp only [indexBits] <;> omega
    rw [exec_ldFVx, hdigit, hwidth]

end Sys2Proof.Machine
end

section
/-! PROOFS. Dxyn of 44_display.md: the loops of R192 against the description point by point, and from that description
alone what a second draw of the same sprite does. -/

namespace Sys2Proof.Machine

/-! ### The loops and the points -/

/-- R192: what Dxyn draws, as the list of its pixels. -/
theorem exec_drw (x y : Reg) (n : Nat) (s : State) :
    exec (.drw x y n) s =
      .next { s with
        fb := (drawPoints (spritePoints s.v[x] s.v[y] 0 (s.memRead s.i.toNat n)) (s.fb, false)).1
        v := s.v.set 15 (flagByte (drawPoints (spritePoints s.v[x] s.v[y] 0 (s.memRead s.i.toNat n)) (s.fb, false)).2)
        pc := s.pc + 2 } := by
  rw [← drawRows_eq]
  rfl

/-- The pixels of the list are the pixels under a set bit (R193). -/
theorem mem_spritePoints_iff_covers {s : State} {x y : Reg} {n : Nat} {px : Fin 64} {py : Fin 32} :
    (px, py) ∈ spritePoints s.v[x] s.v[y] 0 (s.memRead s.i.toNat n) ↔ SpriteCovers s x y n px py := by
  rw [mem_spritePoints]
  refine exists_congr fun r => exists_congr fun c => ?_
  simp only [memRead_length, memRead_getElem, Nat.zero_add, exists_prop]
  tauto

/-- What Dxyn does, point by point: the frame and the flag it leaves. -/
structure DrawEffect (s : State) (x y : Reg) (n : Nat) (f : Frame) (flag : Byte) : Prop where
  pixel_iff : ∀ px py, f.pixel px py = true ↔ Xor (s.fb.pixel px py = true) (SpriteCovers s x y n px py)
  flag_range : flag = 1 ∨ flag = 0
  flag_iff : flag = 1 ↔ ∃ px py, s.fb.pixel px py = true ∧ SpriteCovers s x y n px py

theorem flagByte_eq_one {b : Bool} : flagByte b = 1 ↔ b = true := by
  cases b <;> decide

theorem flagByte_range (b : Bool) : flagByte b = 1 ∨ flagByte b = 0 := by
  cases b <;> decide

theorem xor_decide_eq_true {a : Bool} {p : Prop} [Decidable p] : (a ^^ decide p) = true ↔ Xor (a = true) p := by
  cases a <;> simp [Xor]

/-- R195: the sprite's pixels are distinct, so each one flips once and its old value decides on the collision. -/
theorem exec_drw_effect {x y : Reg} {n : Nat} {s : State} (hn : n < 16) :
    ∃ f flag, exec (.drw x y n) s = .next { s with fb := f, v := s.v.set 15 flag, pc := s.pc + 2 } ∧
      DrawEffect s x y n f flag := by
  have hnodup := spritePoints_nodup s.v[x] s.v[y] 0 (s.memRead s.i.toNat n) (by rw [memRead_length]; omega)
  refine ⟨_, _, exec_drw x y n s, ⟨fun px py => ?pixel, flagByte_range _, ?flag⟩⟩
  case pixel =>
    rw [pixel_drawPoints hnodup, xor_decide_eq_true, mem_spritePoints_iff_covers]
  case flag =>
    rw [flagByte_eq_one, hit_drawPoints hnodup, Bool.false_or, decide_eq_true_iff, Prod.exists]
    simp only [mem_spritePoints_iff_covers, and_comm]

/-! ### Frames -/

/-- Two frames with the same pixels are one. -/
theorem Frame.ext_pixel {f g : Frame} (h : ∀ px py, f.pixel px py = g.pixel px py) : f = g := by
  apply Vector.ext
  intro r hr
  apply BitVec.eq_of_getLsbD_eq
  intro c hc
  exact h ⟨c, hc⟩ ⟨r, hr⟩

/-- What a sprite covers depends on Vx, Vy, I and MEM only. -/
theorem spriteCovers_congr {s t : State} {x y : Reg} {n : Nat} {px : Fin 64} {py : Fin 32} (hx : t.v[x] = s.v[x])
    (hy : t.v[y] = s.v[y]) (hi : t.i = s.i) (hm : t.mem = s.mem) (hc : t.cfg = s.cfg) :
    SpriteCovers t x y n px py ↔ SpriteCovers s x y n px py := by
  simp only [SpriteCovers, hx, hy, hi, readByte_congr hm hc]

/-- A register that a write does not name. -/
theorem getElem_set_of_ne {v : Vector Byte 16} {x r : Reg} {b : Byte} (h : r ≠ x) : (v.set x b)[r] = v[r] := by
  have hne : x.val ≠ r.val := fun e => h (Fin.ext e.symm)
  simp only [Fin.getElem_fin, Vector.getElem_set, if_neg hne]

/-- A flag leaves the other registers. -/
theorem getElem_set_vf {v : Vector Byte 16} {r : Reg} {b : Byte} (h : r ≠ vf) : (v.set 15 b)[r] = v[r] :=
  getElem_set_of_ne h

/-! ### The statements -/

/-- Settles O28: the loops draw the list of the covered pixels, each of them once. -/
theorem drawFlipsCoveredPixels : Obligations.DrawFlipsCoveredPixels := by
  unfold Obligations.DrawFlipsCoveredPixels
  refine ⟨reads_drw, fun x y n s hn => ?_⟩
  obtain ⟨f, flag, hexec, ⟨hpixel, hrange, hflag⟩⟩ := exec_drw_effect (x := x) (y := y) (s := s) hn
  exact ⟨f, flag, hexec, hpixel, hrange, hflag⟩

/-- Settles O29: both draws cover the same pixels, so the second flips back what the first flipped, and hits a pixel that
the first turned on. -/
theorem drawTwiceRestoresFrame : Obligations.DrawTwiceRestoresFrame := by
  unfold Obligations.DrawTwiceRestoresFrame
  intro x y n s t hn hx hy hdraw
  obtain ⟨f, flag, hexec, hs⟩ := exec_drw_effect (x := x) (y := y) (s := s) hn
  obtain rfl := Host.Outcome.next.inj (hexec.symm.trans hdraw)
  obtain ⟨g, flag', hexec', ht⟩ :=
    exec_drw_effect (x := x) (y := y) (s := { s with fb := f, v := s.v.set 15 flag, pc := s.pc + 2 }) hn
  have hcovers (px py) : SpriteCovers { s with fb := f, v := s.v.set 15 flag, pc := s.pc + 2 } x y n px py ↔
      SpriteCovers s x y n px py :=
    spriteCovers_congr (getElem_set_vf hx) (getElem_set_vf hy) rfl rfl rfl
  refine ⟨_, hexec', Frame.ext_pixel fun px py => ?frame, fun hclear ⟨px, py, hcov⟩ => ?flag⟩
  case frame =>
    rw [Bool.eq_iff_iff, ht.pixel_iff, hcovers, hs.pixel_iff]
    simp only [Xor]
    tauto
  case flag =>
    have hflag : flag ≠ 1 := fun e => by simp [e] at hclear
    have hoff : ¬s.fb.pixel px py = true := fun hon => hflag (hs.flag_iff.2 ⟨px, py, hon, hcov⟩)
    have hone : flag' = 1 := ht.flag_iff.2 ⟨px, py, (hs.pixel_iff px py).2 (.inr ⟨hcov, hoff⟩), (hcovers px py).2 hcov⟩
    simp [hone]

end Sys2Proof.Machine
end

section
/-! PROOFS. Frames over all instructions: which registers, bytes and special registers each one may change (10_state.md
R31 to R44, 20_memory.md R64), and that the draw of a STEP reaches Cxkk alone (40_execution_cycle.md R109). -/

namespace Sys2Proof.Machine

/-! ### The draw -/

/-- Log entry 2. -/
theorem exec_rnd_of_free {s : State} (h : s.rand = none) (x : Reg) (kk : Byte) :
    exec (.rnd x kk) s =
      .next { s with v := s.v.set x (Config.freeDraw s.draws &&& kk), pc := s.pc + 2, draws := s.draws + 1 } := by
  have hdraw : s.draw = Config.freeDraw s.draws := by simp [State.draw, h]
  have hconsume : s.consumeDraw = { s with draws := s.draws + 1 } := by simp [State.consumeDraw, h]
  change Host.Outcome.next (s.consumeDraw.setReg x (s.draw &&& kk)).advance = _
  rw [hdraw, hconsume]
  rfl

/-- `s` with another draw. -/
abbrev State.withRand (s : State) (r : Option Byte) : State := { s with rand := r }

theorem memWrite_withRand (s : State) (r : Option Byte) (a : Nat) (bs : List Byte) :
    (s.withRand r).memWrite a bs = (s.memWrite a bs).withRand r := by
  induction bs generalizing s a with
  | nil => rfl
  | cons b bs ih => exact ih (s.writeByte a b) (a + 1)

theorem setRegsFrom_withRand (s : State) (r : Option Byte) (k : Nat) (bs : List Byte) :
    (s.withRand r).setRegsFrom k bs = (s.setRegsFrom k bs).withRand r := by
  induction bs generalizing s k with
  | nil => rfl
  | cons b bs ih => exact ih (s.setReg (Fin.ofNat 16 k) b) (k + 1)

theorem writeResultAndFlag_withRand (s : State) (r : Option Byte) (x : Reg) (res flag : Byte) :
    (s.withRand r).writeResultAndFlag x res flag = (s.writeResultAndFlag x res flag).withRand r := by
  unfold State.writeResultAndFlag
  split <;> rfl

theorem exec_ret_withRand {s t : State} {r : Option Byte} (h : exec .ret s = .next t) :
    exec .ret (s.withRand r) = .next (t.withRand r) := by
  by_cases h0 : s.sp = 0
  · cases (exec_ret_of_empty h0).symm.trans h
    exact exec_ret_of_empty h0
  · have hpos : 0 < s.sp.toNat := Nat.pos_of_ne_zero fun e => h0 (BitVec.eq_of_toNat_eq e)
    by_cases hlt : s.sp.toNat - 1 < 16
    · cases (exec_ret_of_pos hpos hlt).symm.trans h
      exact exec_ret_of_pos (s := s.withRand r) hpos hlt
    · cases (exec_ret_of_gt (by omega)).symm.trans h

theorem exec_call_withRand {s t : State} {r : Option Byte} {nnn : Addr12} (h : exec (.call nnn) s = .next t) :
    exec (.call nnn) (s.withRand r) = .next (t.withRand r) := by
  rcases execCall_next h with ⟨hfull, rfl⟩ | ⟨hlt, -⟩
  · exact exec_call_of_full nnn hfull
  · cases (exec_call_of_lt nnn hlt).symm.trans h
    exact exec_call_of_lt (s := s.withRand r) nnn hlt

/-- Every instruction but Cxkk does the same under another draw: no operation of theirs looks at it. -/
theorem exec_withRand {i : Instr} {s t : State} {r : Option Byte} (hi : ∀ x kk, i ≠ .rnd x kk)
    (h : exec i s = .next t) : exec i (s.withRand r) = .next (t.withRand r) := by
  cases i
  case rnd => exact absurd rfl (hi _ _)
  case ret => exact exec_ret_withRand h
  case call => exact exec_call_withRand h
  case addReg | subReg | subnReg | shr | shl =>
    cases h
    exact congrArg (fun u => Host.Outcome.next u.advance) (writeResultAndFlag_withRand ..)
  case addIVx =>
    rw [exec_addIVx] at h ⊢
    cases h
    rfl
  case ldBVx | storeRegs =>
    cases h
    exact congrArg (fun u => Host.Outcome.next u.advance) (memWrite_withRand ..)
  case loadRegs =>
    cases h
    exact congrArg (fun u => Host.Outcome.next u.advance) (setRegsFrom_withRand ..)
  all_goals
    cases h
    rfl

/-! ### The general registers -/

/-- R153: `WriteResultAndFlag` writes Vx and VF only. -/
theorem getElem_resultAndFlag {last : Bool} {v : Vector Byte 16} {x r : Reg} {res flag : Byte} (hx : r ≠ x)
    (hf : r ≠ vf) : (resultAndFlag last v x res flag)[r] = v[r] := by
  unfold resultAndFlag
  split
  · exact (getElem_set_vf hf).trans (getElem_set_of_ne hx)
  · exact (getElem_set_of_ne hx).trans (getElem_set_vf hf)

/-- R32: outside the table's right column a register stays. -/
theorem exec_reg {i : Instr} {s t : State} {r : Reg} (h : exec i s = .next t) (hr : mayWrite s.cfg i r = false) :
    t.v[r] = s.v[r] := by
  cases i
  case ret => rcases execRet_next h with ⟨-, rfl⟩ | ⟨-, -, -, rfl⟩ <;> rfl
  case call => rcases execCall_next h with ⟨-, rfl⟩ | ⟨-, rfl⟩ <;> rfl
  case ldImm | addImm | ldReg | orReg | andReg | xorReg | rnd | ldVxDt =>
    cases h
    exact getElem_set_of_ne (beq_eq_false_iff_ne.1 hr)
  case addReg | subReg | subnReg | shr | shl =>
    obtain ⟨hx, hf⟩ := Bool.or_eq_false_iff.1 hr
    cases h
    rw [writeResultAndFlag_advance _ _ rfl rfl]
    exact getElem_resultAndFlag (beq_eq_false_iff_ne.1 hx) (beq_eq_false_iff_ne.1 hf)
  case drw =>
    cases h
    exact getElem_set_vf (beq_eq_false_iff_ne.1 hr)
  case addIVx =>
    rw [exec_addIVx] at h
    cases h
    by_cases hset : s.cfg.fx1eSetsVf = true
    · have hf : r ≠ vf := by simpa [mayWrite, hset] using hr
      simp only [hset, if_true]
      exact getElem_set_vf hf
    · simp only [hset]
      rfl
  case loadRegs x =>
    have hx : ¬r ≤ x := of_decide_eq_false hr
    rw [exec_loadRegs] at h
    cases h
    exact (getElem_loadBlock s x r).trans (if_neg hx)
  case ldBVx | storeRegs =>
    cases h
    simp
  all_goals
    cases h
    rfl

/-! ### PC and the special registers -/

/-- R35. -/
theorem exec_pc {i : Instr} {s t : State} (h : exec i s = .next t) :
    (plainAdvance i = true → t.pc = s.pc + 2) ∧ (isSkip i = true → t.pc = s.pc + 2 ∨ t.pc = s.pc + 4) ∧
      (∀ x, i = .ldVxK x → t.pc = s.pc) ∧ (s.run ≠ .faulted → t.run = .faulted → t.pc = s.pc) := by
  cases i
  case ret => rcases execRet_next h with ⟨-, rfl⟩ | ⟨-, -, -, rfl⟩ <;> simp_all [plainAdvance, isSkip]
  case call => rcases execCall_next h with ⟨-, rfl⟩ | ⟨-, rfl⟩ <;> simp_all [plainAdvance, isSkip]
  case seImm | sneImm | seReg | sneReg | skp | sknp =>
    cases h
    simp only [skipIf_pc, skipIf_run]
    split <;> simp_all [plainAdvance]
  case addIVx =>
    rw [exec_addIVx] at h
    cases h
    simp_all [isSkip]
  all_goals
    cases h
    simp_all [plainAdvance, isSkip]

/-- R33, R36 to R44: `i` leaves each special register that its rule does not let `i` write. -/
structure SpecialFrame (i : Instr) (s t : State) : Prop where
  index : (∀ nnn, i ≠ .ldI nnn) → (∀ x, i ≠ .addIVx x) → (∀ x, i ≠ .ldFVx x) → t.i = s.i
  sp_err : (∀ nnn, i ≠ .call nnn) → i ≠ .ret → t.sp = s.sp ∧ t.err = s.err
  stack : (∀ nnn, i ≠ .call nnn) → t.stack = s.stack
  dt : (∀ x, i ≠ .ldDtVx x) → t.dt = s.dt
  st : (∀ x, i ≠ .ldStVx x) → t.st = s.st
  fb : i ≠ .cls → (∀ x y n, i ≠ .drw x y n) → t.fb = s.fb
  base : (∀ x, i ≠ .ldVxK x) → t.base = s.base
  run : (∀ x, i ≠ .ldVxK x) → (∀ nnn, i ≠ .call nnn) → i ≠ .ret → t.run = s.run
  keys : t.keys = s.keys
  cfg : t.cfg = s.cfg
  schedule : t.schedule = s.schedule

theorem exec_special {i : Instr} {s t : State} (h : exec i s = .next t) : SpecialFrame i s t := by
  cases i
  case ret => rcases execRet_next h with ⟨-, rfl⟩ | ⟨-, -, -, rfl⟩ <;> constructor <;> simp
  case call => rcases execCall_next h with ⟨-, rfl⟩ | ⟨-, rfl⟩ <;> constructor <;> simp
  case addIVx =>
    rw [exec_addIVx] at h
    cases h
    constructor <;> simp
  all_goals
    cases h
    constructor <;> simp

/-- R64: only the two stores write MEM. -/
theorem exec_mem {i : Instr} {s t : State} (hb : ∀ x, i ≠ .ldBVx x) (hs : ∀ x, i ≠ .storeRegs x)
    (h : exec i s = .next t) : t.mem = s.mem := by
  cases i
  case ldBVx => exact absurd rfl (hb _)
  case storeRegs => exact absurd rfl (hs _)
  case ret => rcases execRet_next h with ⟨-, rfl⟩ | ⟨-, -, -, rfl⟩ <;> rfl
  case call => rcases execCall_next h with ⟨-, rfl⟩ | ⟨-, rfl⟩ <;> rfl
  case addIVx =>
    rw [exec_addIVx] at h
    cases h
    rfl
  all_goals
    cases h
    simp

/-! ### The statements -/

/-- Settles O10: without a draw of the STEP the free value is the draw, and the count of free values moves on. -/
theorem freeDrawIsUsedOnce : Obligations.FreeDrawIsUsedOnce := by
  unfold Obligations.FreeDrawIsUsedOnce
  exact fun x kk _ h => exec_rnd_of_free h x kk

/-- Settles O11, by instruction: what its operations do commutes with a change of the draw. -/
theorem drawReachesOnlyRandom : Obligations.DrawReachesOnlyRandom := by
  unfold Obligations.DrawReachesOnlyRandom
  exact fun _ _ _ _ => exec_withRand

/-- Settles O35, by instruction: the writes of its operations name registers of the table's column only. -/
theorem onlyListedRegistersChange : Obligations.OnlyListedRegistersChange := by
  unfold Obligations.OnlyListedRegistersChange
  exact fun _ _ _ _ => exec_reg

/-- Settles O36, by instruction: each ends with its one write of PC, and an error writes none. -/
theorem pcAfterEachInstruction : Obligations.PcAfterEachInstruction := by
  unfold Obligations.PcAfterEachInstruction
  exact fun _ _ _ => exec_pc

/-- Settles O37, by instruction: the fields of the frame are the clauses. -/
theorem specialRegistersHaveNamedWriters : Obligations.SpecialRegistersHaveNamedWriters := by
  unfold Obligations.SpecialRegistersHaveNamedWriters
  intro i s t h
  obtain ⟨hindex, hsp, hstack, hdt, hst, hfb, hbase, hrun, hkeys, hcfg, hschedule⟩ := exec_special h
  exact ⟨hindex, hsp, hstack, hdt, hst, hfb, hbase, hrun, hkeys, hcfg, hschedule⟩

/-- Settles O38: the list of changed bytes and the font it is read over both stay. -/
theorem onlyStoresChangeMemory : Obligations.OnlyStoresChangeMemory := by
  unfold Obligations.OnlyStoresChangeMemory
  exact fun _ _ _ hb hs h => readByte_congr (exec_mem hb hs h) (exec_special h).cfg

end Sys2Proof.Machine
end

section
/-! PROOFS. The STEP transaction of 40_execution_cycle.md by the run state: the wait of Fx0A and its end, the instruction
it runs in RUNNING, and the three errors it can report (60_exceptions.md R230 to R242). -/

namespace Sys2Proof.Machine

/-! ### The wait of Fx0A -/

/-- R214. -/
theorem exec_ldVxK (x : Reg) (s : State) :
    exec (.ldVxK x) s = .next { s with base := s.keys, run := .waiting x } := rfl

/-- R215 without an edge. -/
theorem waitRetry_of_no_edge {s : State} (h : s.pressEdge = none) (r : Reg) :
    s.waitRetry r = { s with base := s.keys } := by
  simp only [State.waitRetry, h]

/-- R215 with an edge. -/
theorem waitRetry_of_edge {s : State} {k : Reg} (h : s.pressEdge = some k) (r : Reg) :
    s.waitRetry r =
      { s with v := s.v.set r (BitVec.ofNat 8 k.val), base := s.keys, run := .running, pc := s.pc + 2 } := by
  simp only [State.waitRetry, h]
  rfl

/-- A retry that ends the wait has seen an edge and has written its key. -/
theorem waitRetry_ends {s : State} {r : Reg} (hrun : s.run = .waiting r) (h : (s.waitRetry r).run ≠ .waiting r) :
    (s.waitRetry r).run = .running ∧ ∃ k : Reg, s.keys.getLsbD k = true ∧ s.base.getLsbD k = false ∧
      (s.waitRetry r).v[r] = BitVec.ofNat 8 k.val := by
  cases hedge : s.pressEdge with
  | none =>
    rw [waitRetry_of_no_edge hedge] at h
    exact absurd hrun h
  | some k =>
    obtain ⟨hk, hb, -⟩ := pressEdge_eq_some.1 hedge
    rw [waitRetry_of_edge hedge]
    exact ⟨rfl, k, hk, hb, by simp⟩

/-! ### A STEP in RUNNING -/

theorem step_running {s s0 : State} {rand : Option Byte} (h : NextIsStep s rand s0) (hrun : s.run = .running) :
    step s = State.fetchExecute { s0 with rand := rand } := by
  obtain rfl := h.eq_moveOn
  exact (step_of_nextIsStep h).trans (stepWith_running hrun)

/-- The two instructions that report an error, at the two bounds of the stack, leave RUN = FAULTED and the record of
their word; no other one does. -/
theorem exec_faulted {i : Instr} {s t : State} (h : exec i s = .next t) (hs : s.run ≠ .faulted)
    (ht : t.run = .faulted) :
    (i = .ret ∧ s.sp = 0 ∧ t = s.raise .stackUnderflow (encode i)) ∨
      ((∃ nnn, i = .call nnn) ∧ s.sp = 16 ∧ t = s.raise .stackOverflow (encode i)) := by
  by_cases hret : i = .ret
  · subst hret
    rcases execRet_next h with ⟨hsp, rfl⟩ | ⟨w, -, -, rfl⟩
    · exact .inl ⟨rfl, hsp, rfl⟩
    · exact absurd ht hs
  by_cases hcall : ∃ nnn, i = .call nnn
  · obtain ⟨nnn, rfl⟩ := hcall
    rcases execCall_next h with ⟨hsp, rfl⟩ | ⟨hlt, rfl⟩
    · exact .inr ⟨⟨nnn, rfl⟩, hsp, rfl⟩
    · exact absurd ht hs
  obtain ⟨-, -, -, hrun | ⟨x, hrun⟩, -⟩ := exec_next_plain h hret fun nnn e => hcall ⟨nnn, e⟩
  · exact absurd (hrun.symm.trans ht) hs
  · cases hrun.symm.trans ht

/-- R242: the errors of a fetched word, with the record each one leaves. -/
theorem fetchExecute_faulted {s t : State} (h : s.fetchExecute = .next t) (hs : s.run ≠ .faulted)
    (ht : t.run = .faulted) :
    ((∀ r ∈ opcodeTable, s.fetchWord &&& r.mask ≠ r.value) ∧ t = s.raise .unknownOpcode s.fetchWord) ∨
      (s.fetchWord &&& 0xF000 = 0x2000 ∧ s.sp = 16 ∧ t = s.raise .stackOverflow s.fetchWord) ∨
      (s.fetchWord = 0x00EE ∧ s.sp = 0 ∧ t = s.raise .stackUnderflow s.fetchWord) := by
  rcases fetchExecute_next h with ⟨i, hd, hi⟩ | ⟨hd, rfl⟩
  · rcases exec_faulted hi hs ht with ⟨rfl, hsp, rfl⟩ | ⟨⟨nnn, rfl⟩, hsp, rfl⟩
    · exact .inr (.inr ⟨(encode_of_decode hd).symm, hsp, by rw [encode_of_decode hd]⟩)
    · exact .inr (.inl ⟨and_row_mask_of_decode hd, hsp, by rw [encode_of_decode hd]⟩)
  · exact .inl ⟨decode_eq_error_iff.1 hd, rfl⟩

theorem fetchExecute_of_unknown {s : State} (h : ∀ r ∈ opcodeTable, s.fetchWord &&& r.mask ≠ r.value) :
    s.fetchExecute = .next (s.raise .unknownOpcode s.fetchWord) :=
  fetchExecute_error (decode_eq_error_iff.2 h)

/-- R230, R242: each of the three causes makes the STEP answer an error. -/
theorem fetchExecute_faults {s : State}
    (h : (∀ r ∈ opcodeTable, s.fetchWord &&& r.mask ≠ r.value) ∨ (s.fetchWord &&& 0xF000 = 0x2000 ∧ s.sp = 16) ∨
      (s.fetchWord = 0x00EE ∧ s.sp = 0)) :
    ∃ t, s.fetchExecute = .next t ∧ t.run = .faulted := by
  rcases h with hword | ⟨hword, hsp⟩ | ⟨hword, hsp⟩
  · exact ⟨_, fetchExecute_of_unknown hword, rfl⟩
  · exact ⟨_, (fetchExecute_ok (reads_call _ hword)).trans (exec_call_of_full _ hsp), rfl⟩
  · have hd : decode s.fetchWord = .ok .ret := reads_ret _ ((and_FFFF _).trans hword)
    exact ⟨_, (fetchExecute_ok hd).trans (exec_ret_of_empty hsp), rfl⟩

/-! ### The statements -/

/-- Settles O32: the row is read as Fx0A, and the run state it leaves is the reply. -/
theorem keyWaitSuspends : Obligations.KeyWaitSuspends := by
  unfold Obligations.KeyWaitSuspends
  refine ⟨reads_ldVxK, fun x s => ⟨exec_ldVxK x s, fun hrun => ?_⟩⟩
  simp only [stepReply, hrun]

/-- Settles O33: the STEP is the retry, and the two clauses are the two outcomes of the edge test. -/
theorem keyWaitRetries : Obligations.KeyWaitRetries := by
  unfold Obligations.KeyWaitRetries
  intro s s0 rand r hnext hrun
  obtain rfl := hnext.eq_moveOn
  have hstep : step s = .next (s.moveOn.waitRetry r) := (step_of_nextIsStep hnext).trans (stepWith_waiting hrun)
  refine ⟨fun hno => ?noEdge, fun k hk hb hlow => ?edge⟩
  case noEdge =>
    have hedge : s.moveOn.pressEdge = none := pressEdge_eq_none.2 hno
    exact ⟨hstep.trans (congrArg _ (waitRetry_of_no_edge hedge r)), by simp only [stepReply, hrun]⟩
  case edge =>
    have hedge : s.moveOn.pressEdge = some k := pressEdge_eq_some.2 ⟨hk, hb, hlow⟩
    exact ⟨_, hstep.trans (congrArg _ (waitRetry_of_edge hedge r)), by simp only [stepReply, hrun], rfl⟩

/-- Settles O39: the word at PC is the two bytes, high byte first, and the STEP is the execution of what it decodes to. -/
theorem stepRunsDecodedInstruction : Obligations.StepRunsDecodedInstruction := by
  unfold Obligations.StepRunsDecodedInstruction
  intro s s0 rand i hnext hrun hd
  rw [step_running hnext hrun]
  obtain rfl := hnext.eq_moveOn
  exact fetchExecute_ok hd

/-- Settles O40: the first run-state check answers the state as it is. -/
theorem faultedStepHalts : Obligations.FaultedStepHalts := by
  unfold Obligations.FaultedStepHalts
  intro s s0 rand hnext hrun
  obtain rfl := hnext.eq_moveOn
  exact ⟨(step_of_nextIsStep hnext).trans (stepWith_faulted hrun), by simp only [stepReply, hrun]⟩

/-- Settles O41: a word of no row is what the decoder reports, and the report is the whole effect. -/
theorem unknownWordIsReported : Obligations.UnknownWordIsReported := by
  unfold Obligations.UnknownWordIsReported
  intro s s0 rand w hnext hrun hw hrows
  rw [step_running hnext hrun]
  obtain rfl := hnext.eq_moveOn
  subst hw
  exact fetchExecute_of_unknown (s := { s.moveOn with rand := rand }) hrows

/-- Settles O42: the causes of the fetched word are the three of the statement, and each of them answers an error. -/
theorem errorCausesAreTheThree : Obligations.ErrorCausesAreTheThree := by
  unfold Obligations.ErrorCausesAreTheThree
  intro s s0 rand hnext hrun
  rw [step_running hnext hrun]
  obtain rfl := hnext.eq_moveOn
  refine ⟨fun ⟨t, hstep, ht⟩ => ?_, fetchExecute_faults (s := { s.moveOn with rand := rand })⟩
  rcases fetchExecute_faulted hstep (by simp [hrun]) ht with ⟨hword, -⟩ | ⟨hword, hsp, -⟩ | ⟨hword, hsp, -⟩
  · exact .inl hword
  · exact .inr (.inl ⟨hword, hsp⟩)
  · exact .inr (.inr ⟨hword, hsp⟩)

/-- Settles O43: a retry leaves RUNNING or WAITING, so the error is one of a fetched word, and each of these is one
record. -/
theorem errorsAreWholeAndPrecise : Obligations.ErrorsAreWholeAndPrecise := by
  unfold Obligations.ErrorsAreWholeAndPrecise
  intro s s0 t rand hnext hrun hstep ht
  rw [step_of_nextIsStep hnext] at hstep
  obtain rfl := hnext.eq_moveOn
  rcases stepWith_next hstep with ⟨hfault, -⟩ | ⟨r, hwait, rfl⟩ | ⟨hrunning, hfetch⟩
  · exact absurd hfault hrun
  · by_cases hend : (s.moveOn.waitRetry r).run = .waiting r
    · cases hend.symm.trans ht
    · cases (waitRetry_ends hwait hend).1.symm.trans ht
  · have hreply {u : State} {kind : ErrKind} (hu : u.run = .faulted) (hkind : u.err.kind = kind) :
        stepReply s u = .error kind := by
      have hs : s.run = .running := hrunning
      simp only [stepReply, hs, hu, hkind]
    rcases fetchExecute_faulted hfetch hrun ht with ⟨-, rfl⟩ | ⟨-, -, rfl⟩ | ⟨-, -, rfl⟩
    · exact ⟨.unknownOpcode, rfl, by simp, hreply rfl rfl⟩
    · exact ⟨.stackOverflow, rfl, by simp, hreply rfl rfl⟩
    · exact ⟨.stackUnderflow, rfl, by simp, hreply rfl rfl⟩

/-- Settles O44: in FAULTED and WAITING no timer is written, and in RUNNING only by the instruction the word decodes to.
-/
theorem stepLeavesTimersAndKeys : Obligations.StepLeavesTimersAndKeys := by
  unfold Obligations.StepLeavesTimersAndKeys
  intro s s0 t rand hnext hstep
  rw [step_of_nextIsStep hnext] at hstep
  obtain rfl := hnext.eq_moveOn
  rcases stepWith_next hstep with ⟨-, rfl⟩ | ⟨r, -, rfl⟩ | ⟨hrun, hfetch⟩
  · simp
  · simp
  rcases fetchExecute_next hfetch with ⟨i, hd, hi⟩ | ⟨-, rfl⟩
  · have hframe := exec_special hi
    refine ⟨hframe.keys, fun hne => ?dt, fun hne => ?st⟩
    case dt =>
      obtain ⟨x, rfl⟩ : ∃ x, i = .ldDtVx x := by
        by_contra hno
        exact hne (hframe.dt fun x e => hno ⟨x, e⟩)
      cases hi
      exact ⟨x, hrun, hd, rfl⟩
    case st =>
      obtain ⟨x, rfl⟩ : ∃ x, i = .ldStVx x := by
        by_contra hno
        exact hne (hframe.st fun x e => hno ⟨x, e⟩)
      cases hi
      exact ⟨x, hrun, hd, rfl⟩
  · simp

/-- Settles O45: the jump writes the PC it stands at. -/
theorem selfJumpRepeats : Obligations.SelfJumpRepeats := by
  unfold Obligations.SelfJumpRepeats
  intro s s0 rand hnext hrun hjump
  rw [step_running hnext hrun]
  obtain rfl := hnext.eq_moveOn
  obtain ⟨nnn, hd, hpc⟩ := id hjump
  refine ⟨?step, by simp only [stepReply, hrun], .inr ⟨hrun, hjump⟩⟩
  rw [fetchExecute_ok (s := { s.moveOn with rand := rand }) hd, exec_jp, ← zext12_eq, hpc]

end Sys2Proof.Machine
end

section
/-! PROOFS. The transactions of the host (00_scope.md R13): RESET and its values, TICK, KEY_WRITE, LOAD and the two
reads, what each leaves in every run state, and the output TONE. -/

namespace Sys2Proof.Machine

/-! ### TICK -/

/-- R250: one less, floored at 0. -/
theorem tickTimer_eq (t : Byte) : tickTimer t = BitVec.ofNat 8 (t.toNat - 1) := by
  apply BitVec.eq_of_toNat_eq
  unfold tickTimer
  split
  · simp only [BitVec.toNat_sub, BitVec.toNat_ofNat, BitVec.ofNat_eq_ofNat]
    omega
  · simp only [BitVec.toNat_ofNat]
    omega

/-! ### LOAD -/

/-- R280. -/
theorem load_of_fits {s : State} {start : Nat} {bytes : List Byte} (h : start + bytes.length ≤ 4096) :
    s.load start bytes = s.memWrite start bytes := by
  rw [State.load, if_neg (by omega)]

/-- R281. -/
theorem load_of_overflow {s : State} {start : Nat} {bytes : List Byte} (h : 4096 < start + bytes.length) :
    s.load start bytes = s.fail .loadOverflow (BitVec.ofNat 16 start) 0 := by
  rw [State.load, if_pos h]

/-- R281: a LOAD leaves RUN, or enters FAULTED because it passes the end of MEM. -/
theorem load_run (s : State) (start : Nat) (bytes : List Byte) :
    (s.load start bytes).run = s.run ∨ (4096 < start + bytes.length ∧ (s.load start bytes).run = .faulted) := by
  rcases Nat.lt_or_ge 4096 (start + bytes.length) with h | h
  · exact .inr ⟨h, by rw [load_of_overflow h]; rfl⟩
  · exact .inl (by rw [load_of_fits h, memWrite_run])

/-- R280: where a block that fits was written, and where it was not. -/
theorem readByte_load {s : State} (hs : s.MemLegal) {start : Nat} {bytes : List Byte}
    (h : start + bytes.length ≤ 4096) :
    (∀ j, (hj : j < bytes.length) → (s.memWrite start bytes).readByte (start + j) = bytes[j]) ∧
      ∀ a, a < 4096 → (a < start ∨ start + bytes.length ≤ a) →
        (s.memWrite start bytes).readByte a = s.readByte a :=
  ⟨fun _ hj => readByte_memWrite_same hs start bytes (by omega) hj,
    fun a ha hout => readByte_memWrite_other hs start a bytes fun k hk => by omega⟩

/-! ### What a STEP keeps -/

/-- R46: no instruction and no report changes the parameters or the schedule. -/
theorem stepWith_cfg_schedule {s t : State} {rand : Option Byte} (h : s.stepWith rand = .next t) :
    t.cfg = s.cfg ∧ t.schedule = s.schedule := by
  rcases stepWith_next h with ⟨-, rfl⟩ | ⟨r, -, rfl⟩ | ⟨-, hfetch⟩
  · exact ⟨rfl, rfl⟩
  · exact ⟨waitRetry_cfg s r, waitRetry_schedule s r⟩
  rcases fetchExecute_next hfetch with ⟨i, -, hi⟩ | ⟨-, rfl⟩
  · exact ⟨(exec_special hi).cfg, (exec_special hi).schedule⟩
  · exact ⟨rfl, rfl⟩

/-! ### The statements -/

/-- Settles O46: the registers are the listed literals, and a memory that lists nothing reads as the font and zeros. -/
theorem resetLeavesTheListedValues : Obligations.ResetLeavesTheListedValues := by
  unfold Obligations.ResetLeavesTheListedValues
  refine ⟨by decide, rfl, rfl, rfl, by decide, rfl, rfl, pixel_clear, rfl, rfl, rfl, rfl, fun a ha => ?font,
    fun a ha hlt => ?zero⟩
  case font =>
    change background State.reset.cfg.fontRom (wrapAddr a) = _
    rw [wrapAddr, Nat.mod_eq_of_lt (by omega), background, dif_pos ha]
  case zero =>
    change background State.reset.cfg.fontRom (wrapAddr a) = 0
    rw [wrapAddr, Nat.mod_eq_of_lt hlt, background, dif_neg (by omega)]

/-- Settles O47: the reset state does not depend on the state before, but for the fields that are not the CORE's. -/
theorem resetTransactionFromAnyState : Obligations.ResetTransactionFromAnyState := by
  unfold Obligations.ResetTransactionFromAnyState
  exact fun _ _ h => step_cons h

/-- Settles O51, by the transaction: each is named with the fields it may write. -/
theorem faultedUntilReset : Obligations.FaultedUntilReset := by
  unfold Obligations.FaultedUntilReset
  intro s t hrun hreset hstep
  rcases step_next hstep with ⟨rand, -, he⟩ | ⟨hhead, -⟩ | ⟨start, bytes, hhead, rfl⟩ | ⟨keys, -, rfl⟩ | ⟨hhead, rfl⟩ |
    ⟨-, rfl⟩
  · cases (stepWith_faulted (s := s.moveOn) hrun).symm.trans he
    simp [hrun]
  · exact absurd hhead hreset
  · have hfault : (s.moveOn.load start bytes).run = .faulted := by
      rcases load_run s.moveOn start bytes with h | ⟨-, h⟩
      · exact h.trans hrun
      · exact h
    simp [hfault, hhead]
  · simp [hrun]
  · simp [hrun, hhead]
  · simp [hrun]

/-- Settles O52, by the transaction: the STEP is a retry that saw an edge, and TICK, KEY_WRITE and the reads leave RUN.
-/
theorem waitingEndsOnlyByEdgeOrReset : Obligations.WaitingEndsOnlyByEdgeOrReset := by
  unfold Obligations.WaitingEndsOnlyByEdgeOrReset
  intro s t r hrun hstep hend
  rcases step_next hstep with ⟨rand, hnext, he⟩ | ⟨hhead, -⟩ | ⟨start, bytes, hhead, rfl⟩ | ⟨keys, -, rfl⟩ | ⟨-, rfl⟩ |
    ⟨-, rfl⟩
  · cases (stepWith_waiting (s := s.moveOn) hrun).symm.trans he
    exact .inl ⟨rand, _, hnext, waitRetry_ends (s := s.moveOn) hrun hend⟩
  · exact .inr (.inl hhead)
  · rcases load_run s.moveOn start bytes with h | ⟨hlong, hfault⟩
    · exact absurd (h.trans hrun) hend
    · exact .inr (.inr ⟨start, bytes, hhead, hlong, hfault⟩)
  · exact absurd hrun hend
  · exact absurd hrun hend
  · exact absurd hrun hend

/-- Settles O53, by the transaction: it is applied to the state whose schedule has moved on, and keeps both fields. -/
theorem parametersAreFixed : Obligations.ParametersAreFixed := by
  unfold Obligations.ParametersAreFixed
  intro s t hstep
  rcases step_next hstep with ⟨rand, -, he⟩ | ⟨-, rfl⟩ | ⟨start, bytes, -, rfl⟩ | ⟨keys, -, rfl⟩ | ⟨-, rfl⟩ | ⟨-, rfl⟩
  · exact stepWith_cfg_schedule he
  all_goals simp

/-- Settles O54: TICK is the tick of both timers, in whatever run state. -/
theorem tickDecrementsTimers : Obligations.TickDecrementsTimers := by
  unfold Obligations.TickDecrementsTimers
  intro s rest h
  rw [step_cons h, ← tickTimer_eq, ← tickTimer_eq]
  rfl

/-- Settles O55: the transaction is one write of KEYS. -/
theorem keyWriteWritesOnlyKeys : Obligations.KeyWriteWritesOnlyKeys := by
  unfold Obligations.KeyWriteWritesOnlyKeys
  exact fun _ _ _ h => step_cons h

/-- Settles O56: a LOAD that fits is one write of its block, which does not wrap, and one that does not is the entry of
its error. -/
theorem loadWritesOrIsRejected : Obligations.LoadWritesOrIsRejected := by
  unfold Obligations.LoadWritesOrIsRejected
  intro s start bytes rest hs h
  have hstep : step s = .next ({ s with schedule := rest }.load start bytes) := step_cons h
  refine ⟨fun hfits => ?fits, fun hlong => ?rejected⟩
  case fits =>
    rw [load_of_fits hfits, memWrite_eq] at hstep
    obtain ⟨hin, hout⟩ := readByte_load (s := { s with schedule := rest }) hs hfits
    rw [memWrite_eq] at hin hout
    exact ⟨_, hstep, hin, hout⟩
  case rejected =>
    rw [load_of_overflow hlong] at hstep
    exact hstep

/-- Settles O57: neither read writes the state, and the returned bytes are the reads at each address. -/
theorem readsChangeNothing : Obligations.ReadsChangeNothing := by
  unfold Obligations.ReadsChangeNothing
  intro s t rest h ht
  refine ⟨?step, rfl, s.memRead 0 4096, rfl, memRead_length s 0 4096, fun a ha => ?byte⟩
  case step => rcases ht with rfl | rfl <;> exact step_cons h
  case byte =>
    have hlen : a < (s.memRead 0 4096).length := by rwa [memRead_length]
    rw [List.getElem?_eq_getElem hlen, memRead_getElem, Nat.zero_add]

/-- Settles O58: ST is zero exactly as a number. -/
theorem toneFollowsSoundTimer : Obligations.ToneFollowsSoundTimer := by
  unfold Obligations.ToneFollowsSoundTimer
  intro s
  rw [State.tone, bne_iff_ne, ne_eq, ← BitVec.toNat_inj]
  rfl

end Sys2Proof.Machine
end
